-- ==== Sys2Proof/Word.lean ====
section
/-! DEFINITION. The bit vectors of the machine and the ends of the signed range (spec/00_scope.md R8, R9; the
width W is 32, the default of R7: log 1). -/

namespace Sys2Proof

/-- A word of W = 32 bits: a register, a memory cell, an immediate, a value field (R9; 20_memory.md R51). -/
abbrev Word := BitVec 32

/-- An instruction word of 2W + 8 = 72 bits (30_encoding.md R85). -/
abbrev InstrWord := BitVec 72

/-- One byte of the program file (30_encoding.md R70; log 12). -/
abbrev Byte := BitVec 8

/-- A piece of program text, as bytes (30_encoding.md R70; log 12). -/
abbrev Text := List Byte

/-- `INT_MIN` of the signed `w`-bit words (R9). -/
def intMin (w : Nat) : Int := -((2 ^ (w - 1) : Nat) : Int)

/-- `INT_MAX` of the signed `w`-bit words (R9). -/
def intMax (w : Nat) : Int := ((2 ^ (w - 1) : Nat) : Int) - 1

end Sys2Proof
end

