-- ==== Sys2Proof/Syntax.lean ====
section
/-! DEFINITION. The instruction set as data: one constructor per row of spec/opcode_table.json, the operand
classes of spec/00_scope.md R12, and the names that reports use. -/

namespace Sys2Proof

/-- A present operand: its class and its value field (30_encoding.md R87, R88). -/
inductive Operand
  /-- Register: the index is the whole field read unsigned; 4 and more name no register. -/
  | reg (f : Word)
  /-- Immediate: the word itself. -/
  | imm (v : Word)
  /-- Memory: the address is the field read signed. -/
  | mem (f : Word)
deriving DecidableEq, Repr

/-- The instructions, one per row of the opcode map (30_encoding.md R89). An operand is `none` where its kind is
absent (R87, R88: its value field is then ignored). The rows NOP, HLT, MISSING and reserved ignore their operand
fields (R92), so they carry none (log 15). -/
inductive Instr
  /-- `0x0` NOP, a blank line. -/
  | nop
  /-- `0x1` MOV. -/
  | mov (dst src : Option Operand)
  /-- `0x2` ADD. -/
  | add (dst src : Option Operand)
  /-- `0x3` SUB. -/
  | sub (dst src : Option Operand)
  /-- `0x4` MUL. -/
  | mul (dst src : Option Operand)
  /-- `0x5` DIV. -/
  | div (dst src : Option Operand)
  /-- `0x6` HLT. -/
  | hlt
  /-- `0x7` MISSING, the marker of a line with no mnemonic. -/
  | missing
  /-- `0x8` to `0xF`, reserved: an unknown mnemonic. -/
  | reserved (op : BitVec 4)
deriving DecidableEq, Repr

/-- The four operations of the simple_alu (41_alu_arithmetic.md R120). -/
inductive AluOp
  | add
  | sub
  | mul
  | div
deriving DecidableEq, Repr

/-- The mnemonics of a general line (30_encoding.md R77), which an `Ok` event names (10_state.md R27). -/
inductive Mnemonic
  | mov
  | alu (op : AluOp)
deriving DecidableEq, Repr

/-- Which operand an `InvalidRegister` names: operand 1 or operand 2 (60_exceptions.md R160, R161). -/
inductive Position
  | dst
  | src
deriving DecidableEq, Repr

end Sys2Proof
end

