-- ==== Sys2Proof/WellFormed.lean ====
section
/-! DEFINITION. Which terms of `Instr` stand for an instruction word. -/

namespace Sys2Proof

/-- A reserved opcode lies in `0x8..0xF` (30_encoding.md R90); every other term is well formed, whatever its
operands, since every combination of the operand fields has a defined outcome (R94). -/
def Instr.wf : Instr → Bool
  | .nop => true
  | .mov _ _ => true
  | .add _ _ => true
  | .sub _ _ => true
  | .mul _ _ => true
  | .div _ _ => true
  | .hlt => true
  | .missing => true
  | .reserved op => decide (8 ≤ op.toNat)

end Sys2Proof
end

