-- ==== Sys2Proof/Decode.lean ====
section
/-! DEFINITION. The instruction word: its fields, the decoder and the encoder (spec/30_encoding.md R85 to R95), and
the host's reading of a table word. Decoding is total: no word is undecodable (R94), so nothing is rejected here. -/

namespace Sys2Proof

/-- `op = w[3:0]` (R86). -/
def opField (w : InstrWord) : BitVec 4 := w.extractLsb' 0 4

/-- `dk = w[5:4]` (R86). -/
def dkField (w : InstrWord) : BitVec 2 := w.extractLsb' 4 2

/-- `sk = w[7:6]` (R86). -/
def skField (w : InstrWord) : BitVec 2 := w.extractLsb' 6 2

/-- `dv = w[39:8]` (R86). -/
def dvField (w : InstrWord) : Word := w.extractLsb' 8 32

/-- `sv = w[71:40]` (R86). -/
def svField (w : InstrWord) : Word := w.extractLsb' 40 32

/-- The operand of kind code `k` with value field `f` (R87, R88). -/
def operandOf (k : BitVec 2) (f : Word) : Option Operand :=
  match k.toNat with
  | 1 => some (.reg f)
  | 2 => some (.imm f)
  | 3 => some (.mem f)
  | _ => none

/-- The operand that a word's `dk` and `dv` give. -/
def dstOperand (w : InstrWord) : Option Operand := operandOf (dkField w) (dvField w)

/-- The operand that a word's `sk` and `sv` give. -/
def srcOperand (w : InstrWord) : Option Operand := operandOf (skField w) (svField w)

/-- The opcode map (R89): `op` is the only field the selection reads. -/
def decode (w : InstrWord) : Instr :=
  match (opField w).toNat with
  | 0 => .nop
  | 1 => .mov (dstOperand w) (srcOperand w)
  | 2 => .add (dstOperand w) (srcOperand w)
  | 3 => .sub (dstOperand w) (srcOperand w)
  | 4 => .mul (dstOperand w) (srcOperand w)
  | 5 => .div (dstOperand w) (srcOperand w)
  | 6 => .hlt
  | 7 => .missing
  | _ => .reserved (opField w)

/-- The kind code of an operand (R87). -/
def kindCode : Option Operand → BitVec 2
  | none => 0
  | some (.reg _) => 1
  | some (.imm _) => 2
  | some (.mem _) => 3

/-- The value field of an operand; zero where it is absent, as the front end writes it (R88). -/
def valueField : Option Operand → Word
  | none => 0
  | some (.reg f) => f
  | some (.imm v) => v
  | some (.mem f) => f

/-- `w = sv :: dv :: sk :: dk :: op` (R86). -/
def packWord (op : BitVec 4) (dk sk : BitVec 2) (dv sv : Word) : InstrWord :=
  sv ++ dv ++ sk ++ dk ++ op

/-- The word of opcode `op` with two operands. -/
def operandWord (op : BitVec 4) (dst src : Option Operand) : InstrWord :=
  packWord op (kindCode dst) (kindCode src) (valueField dst) (valueField src)

/-- The opcode of an instruction (R89). -/
def opcode : Instr → BitVec 4
  | .nop => 0x0
  | .mov _ _ => 0x1
  | .add _ _ => 0x2
  | .sub _ _ => 0x3
  | .mul _ _ => 0x4
  | .div _ _ => 0x5
  | .hlt => 0x6
  | .missing => 0x7
  | .reserved op => op

/-- The word of an instruction. Fields that its row ignores are zero, as the front end writes them (R92, R96). -/
def encode (i : Instr) : InstrWord :=
  match i with
  | .nop => operandWord (opcode i) none none
  | .mov dst src => operandWord (opcode i) dst src
  | .add dst src => operandWord (opcode i) dst src
  | .sub dst src => operandWord (opcode i) dst src
  | .mul dst src => operandWord (opcode i) dst src
  | .div dst src => operandWord (opcode i) dst src
  | .hlt => operandWord (opcode i) none none
  | .missing => operandWord (opcode i) none none
  | .reserved _ => operandWord (opcode i) none none

/-- The instruction word that a table word stands for: its low `nbits` bits, zero above them. An instruction is one
72-bit word and is stored whole, so no byte order arises (20_memory.md R54). -/
def tableWord (nbits w : Nat) : InstrWord := BitVec.ofNat 72 (w % 2 ^ nbits)

/-- The host's question: the instruction the decoder reads from a table word. -/
def decodeTableWord (nbits w : Nat) : Option Instr := some (decode (tableWord nbits w))

end Sys2Proof
end

