-- ==== Sys2Proof/Config.lean ====
section
/-! DEFINITION. The implementation parameters of spec/00_scope.md R7 as plain data, the values the model takes
for them at `State.reset`, and the free values of the ports (spec/93_implementation_defined.md I16). -/

namespace Sys2Proof

/-- `OVERFLOW_POLICY` (R7; 41_alu_arithmetic.md R121). -/
inductive OverflowPolicy
  | wrap
  | saturate
deriving DecidableEq, Repr

/-- `IMM_PARSE` (R7; 30_encoding.md R82). -/
inductive ImmParse
  | permissive
  | strict
deriving DecidableEq, Repr

/-- The parameters of the block that the model takes as arguments (R7). `NREG` is 4, `REG_NAME[0]` is `ax` and
`REG_NAME[1]` is `ab` for every block; `W` is 32 (log 1). -/
structure Params where
  /-- `MEM_SIZE`, the number N of memory words (OPEN in R7; log 2). -/
  memSize : Nat
  /-- `REG_NAME[2]` (OPEN in R7; log 3). -/
  regName2 : Text
  /-- `REG_NAME[3]` (OPEN in R7; log 3). -/
  regName3 : Text
  overflow : OverflowPolicy
  immParse : ImmParse
  /-- `PC_MAX` (R7; log 6). -/
  pcMax : Nat
deriving DecidableEq, Repr

/-- The parameters at `State.reset`. The last three are R7's defaults. DESIGN CHOICE (log 2, log 3; unsafe for a
claim about `State.reset` alone): N = 16 and the names `R2`, `R3`, the stand-ins of 95_test_vectors.md. -/
def Params.default : Params :=
  { memSize := 16
    regName2 := [0x52, 0x32]
    regName3 := [0x52, 0x33]
    overflow := .wrap
    immParse := .permissive
    pcMax := 2 ^ 32 - 1 }

/-- FREE VALUE (log 16, safe): the register file's read data on a bad index, "any value" (10_state.md R24; I16). -/
opaque Config.rfBadData : Word → Word

/-- FREE VALUE (log 16, safe): the memory's read data at a bad address, "any value" (20_memory.md R64; I16). -/
opaque Config.memBadData : Word → Word

/-- FREE VALUE (log 16, safe): `alu_y` where rules R124 to R127 give no result, that is for a zero divisor or an
`alu_op` that is none of the four (41_alu_arithmetic.md R120). -/
opaque Config.aluNoResult : BitVec 4 → Word → Word → Word

end Sys2Proof
end

