-- ==== Sys2Proof/Machine/State.lean ====
section
/-! DEFINITION. The state of the machine (spec/10_state.md R20 to R34), its errors (spec/60_exceptions.md R160), its
report events (R27), the reasons a step of the model stops, and the state after reset (R34). -/

namespace Sys2Proof.Machine

/-- The register file: exactly four words, in index order (R21, R28). -/
structure RegFile where
  x0 : Word
  x1 : Word
  x2 : Word
  x3 : Word
deriving DecidableEq, Repr

/-- The memory array as the list of its nonzero cells, (index, word), indices strictly rising; an unlisted index reads
as 0, the initial value R34 states. A cell is one whole word and is never split into bytes (20_memory.md R54; log 11). -/
abbrev Memory := List (Nat × Word)

/-- The run status (R29). -/
inductive RunStatus
  | running
  | halted
  | exhausted
deriving DecidableEq, Repr

/-- The closed enumeration of error kinds (60_exceptions.md R160). -/
inductive ErrorKind
  | invalidRegister
  | addressOutOfRange
  | divisionByZero
  | missingInstruction
  | missingOperand
  | unknownInstruction
  /-- Raised by the launch, never by a step (R167). -/
  | fileOpenFailure
deriving DecidableEq, Repr

/-- An error that an instruction raises, with the information its `Err` event records (R160). -/
inductive Error
  | invalidRegister (pos : Position)
  | addressOutOfRange (a : Int)
  | divisionByZero
  | missingInstruction
  | missingOperand (present : Nat)
  | unknownInstruction (op : BitVec 4)
deriving DecidableEq, Repr

/-- The report events (R27). The operands of `ok` are the decoded operands, kind and value (30_encoding.md R97); `regs`
is the snapshot in index order (R28; log 13). -/
inductive Event
  | ok (pc : Nat) (mnem : Mnemonic) (dst src : Operand) (regs : RegFile)
  | err (pc : Nat) (e : Error)
  | halted (pc : Nat)
  | exhausted (pc : Nat)
deriving DecidableEq, Repr

/-- The whole state. The first five fields are the architectural state (R20); `prog` and `params` are the parameters of
the run, which no step writes (R20; 20_memory.md R62; log 7). -/
structure State where
  /-- `x[0..3]` (R21). -/
  regs : RegFile
  /-- `mem[0..N-1]` (20_memory.md R51), with N = `params.memSize`. -/
  mem : Memory
  /-- The program counter, a line number from 1 (R25). -/
  pc : Nat
  status : RunStatus
  /-- The report events, oldest first (R27). -/
  trace : List Event
  /-- The program store: the word of line k at place k - 1 (30_encoding.md R85, R96). -/
  prog : List InstrWord
  params : Params
deriving DecidableEq, Repr

/-- Why a step of the model stops. No instruction raises one: the spec's errors are next states (60_exceptions.md R169). -/
inductive Fault
  /-- Raised by fetching when the run is over: "Once status is not Running, no further step exists" (R29; log 9).
  Safe: the block takes no step there. -/
  | runEnded
  /-- Raised by fetching at line number 0, a value the program counter never holds (R25: 1 <= pc; log 10).
  Safe: no run reaches such a state, and nothing is claimed of one. -/
  | noLine
deriving DecidableEq, Repr

/-- Why an instruction has no meaning in the model. -/
inductive Refusal
  /-- Raised by a rejected arm of `exec`; there is none, so nothing raises it. Safe. -/
  | notModelled (mnemonic : String)
deriving DecidableEq, Repr

/-- The state at the start of a run of a program under given parameters (R34; 70_reset_and_hazards.md R190 step 4). -/
def State.initial (p : Params) (prog : List InstrWord) : State :=
  { regs := { x0 := 0, x1 := 0, x2 := 0, x3 := 0 }
    mem := []
    pc := 1
    status := .running
    trace := []
    prog := prog
    params := p }

/-- The machine right after reset: every register and memory word 0, `pc` 1, `Running`, no event (R34). No program is
placed (log 8); the parameters are `Params.default` (log 2, log 3). -/
def State.reset : State := State.initial Params.default []

end Sys2Proof.Machine
end

