-- ==== Sys2Proof/Machine/Flags.lean ====
section
/-! DEFINITION. The block has no status flags, condition codes or predicates (spec/10_state.md R30): no instruction
computes or writes one. What stands here are the one-bit conditions of its ports, which are no state: the bad-index,
bad-address and divide-by-zero signals (10_state.md R24, 20_memory.md R64, 41_alu_arithmetic.md R120). -/

namespace Sys2Proof.Machine

/-- `rf_ra_bad`, `rf_rb_bad`: 1 when `uint(idx) >= 4` (10_state.md R24). -/
def rfBad (idx : Word) : Bool := decide (4 ≤ idx.toNat)

/-- `mem_ra_bad`, `mem_wa_bad`: 1 when the address is below 0 or not below N (20_memory.md R52, R64). -/
def memBad (n : Nat) (a : Int) : Bool := decide (a < 0) || decide ((n : Int) ≤ a)

/-- `alu_dz`: 1 when the operation is DIV and `sint(b) = 0` (41_alu_arithmetic.md R120). -/
def aluDivZero {w : Nat} (op : AluOp) (b : BitVec w) : Bool := decide (op = .div) && decide (b.toInt = 0)

end Sys2Proof.Machine
end

