-- ==== Sys2Proof/Machine/Ops.lean ====
section
/-! DEFINITION. The named operations over registers, memory, the trace and the program counter: the register file's
read and write (spec/10_state.md R22, R23), the bounds-checked memory (spec/20_memory.md R52), reporting (R27), taking an
error (spec/60_exceptions.md R169) and fetching a line (spec/42_control_and_sequencing.md R140). -/

namespace Sys2Proof.Machine

/-! ### Registers -/

/-- `x[i]` (10_state.md R22). -/
def RegFile.get (x : RegFile) (i : Fin 4) : Word :=
  match i with
  | 0 => x.x0
  | 1 => x.x1
  | 2 => x.x2
  | 3 => x.x3

/-- `x[i] <- v`: the whole word, nothing else (10_state.md R23). -/
def RegFile.set (x : RegFile) (i : Fin 4) (v : Word) : RegFile :=
  match i with
  | 0 => { x with x0 := v }
  | 1 => { x with x1 := v }
  | 2 => { x with x2 := v }
  | 3 => { x with x3 := v }

/-- The index check of a register access: `uint(f)` of 4 or more raises `InvalidRegister(pos)` (10_state.md R22, R23;
30_encoding.md R88). -/
def regCheck (pos : Position) (f : Word) : Except Error (Fin 4) :=
  if h : f.toNat < 4 then .ok ⟨f.toNat, h⟩ else .error (.invalidRegister pos)

/-! ### Memory -/

/-- The word at an index: the listed one, else 0 (10_state.md R34). -/
def Memory.read : Memory → Nat → Word
  | [], _ => 0
  | (b, v) :: m, a => if a = b then v else Memory.read m a

/-- Replaces the word at one index (20_memory.md R53), keeping the canonical form: a cell that becomes 0 is unlisted. -/
def Memory.write : Memory → Nat → Word → Memory
  | [], a, v => if v = 0 then [] else [(a, v)]
  | (b, u) :: m, a, v =>
    if a < b then (if v = 0 then (b, u) :: m else (a, v) :: (b, u) :: m)
    else if a = b then (if v = 0 then m else (a, v) :: m)
    else (b, u) :: Memory.write m a v

/-- The canonical form: indices strictly rising and no cell equal to what an unlisted one reads as. -/
def Memory.wf : Memory → Bool
  | [] => true
  | [(_, v)] => decide (v ≠ 0)
  | (a, v) :: (b, u) :: m => decide (v ≠ 0) && decide (a < b) && Memory.wf ((b, u) :: m)

/-- `MemCheck(a)` of a memory of `n` words (20_memory.md R52): the index, or `AddressOutOfRange(a)`. -/
def memCheck (n : Nat) (a : Int) : Except Error Nat :=
  if memBad n a then .error (.addressOutOfRange a) else .ok a.toNat

/-! ### Reports and errors -/

/-- The kind of an error (60_exceptions.md R160). -/
def Error.kind : Error → ErrorKind
  | .invalidRegister _ => .invalidRegister
  | .addressOutOfRange _ => .addressOutOfRange
  | .divisionByZero => .divisionByZero
  | .missingInstruction => .missingInstruction
  | .missingOperand _ => .missingOperand
  | .unknownInstruction _ => .unknownInstruction

/-- The code of an error kind (60_exceptions.md R160). -/
def ErrorKind.code : ErrorKind → Nat
  | .invalidRegister => 1
  | .addressOutOfRange => 2
  | .divisionByZero => 3
  | .missingInstruction => 4
  | .missingOperand => 5
  | .unknownInstruction => 6
  | .fileOpenFailure => 7

/-- `report(ev)`: append an event to the trace (00_scope.md R10). -/
def report (ev : Event) (s : State) : State := { s with trace := s.trace ++ [ev] }

/-- `pc <- pc + 1` (10_state.md R26). -/
def advance (s : State) : State := { s with pc := s.pc + 1 }

/-- The success report of an instruction: its line, mnemonic, operands and the registers after it (10_state.md R27). -/
def reportOk (m : Mnemonic) (dst src : Operand) (s : State) : State :=
  report (.ok s.pc m dst src s.regs) s

/-- TAKING AN ERROR, the block's trap entry (60_exceptions.md R169): (a) no register and no memory cell is written,
(b) `Err(pc, E, info)` is appended, (c) `pc` goes to the next line, where (d) the run goes on. No state is saved, no mode
changes, and there is no handler to return from (R170). -/
def takeError (e : Error) (s : State) : State := advance (report (.err s.pc e) s)

/-- The end of an instruction's step (42_control_and_sequencing.md R140): on success its state with `pc` advanced; on a
raised error, the error taken in the state BEFORE the instruction (00_scope.md R11). -/
def settle (s : State) : Except Error State → Host.Outcome State Fault Refusal
  | .ok t => .next (advance t)
  | .error e => .next (takeError e s)

/-! ### The line to process -/

/-- The word of the line at `pc`, or nothing past the last line (42_control_and_sequencing.md R140). A step exists only
while the status is Running (10_state.md R29; log 9), and lines are numbered from 1 (30_encoding.md R70; log 10). -/
def fetch (s : State) : Except Fault (Option InstrWord) :=
  match s.status with
  | .running => if s.pc = 0 then .error .noLine else .ok s.prog[s.pc - 1]?
  | .halted => .error .runEnded
  | .exhausted => .error .runEnded

/-- The step at the end of the input (42_control_and_sequencing.md R145); `pc` stays. -/
def exhaust (s : State) : State := { report (.exhausted s.pc) s with status := .exhausted }

/-- `l` with `x` at place `n`, filled up with `d` where it is too short. -/
def setOrExtend {α : Type} (d x : α) : Nat → List α → List α
  | 0, [] => [x]
  | 0, _ :: l => x :: l
  | n + 1, [] => d :: setOrExtend d x n []
  | n + 1, y :: l => y :: setOrExtend d x n l

/-- `s` with word `w` as the line that the next step processes. This stands for the launch that loads a program (log 8):
the run is not over, `pc` is a line number, and lines that the program had not yet before this one are NOP words. -/
def placeWord (w : InstrWord) (s : State) : State :=
  { s with
    status := .running
    pc := max s.pc 1
    prog := setOrExtend 0 w (s.pc - 1) s.prog }

end Sys2Proof.Machine
end

