-- ==== Sys2Proof/Machine/Operands.lean ====
section
/-! DEFINITION. The operand forms: the arity check, the operand classes, reading an operand and choosing a write target
(spec/40_data_movement.md R110, R111; spec/41_alu_arithmetic.md R123). -/

namespace Sys2Proof.Machine

/-- How many of two operands are present (60_exceptions.md R160, R165). -/
def presentCount (dst src : Option Operand) : Nat :=
  (if dst.isSome then 1 else 0) + (if src.isSome then 1 else 0)

/-- The arity check of MOV, ADD, SUB, MUL and DIV, each of which needs two operands (60_exceptions.md R165). -/
def bothOperands : Option Operand → Option Operand → Except Error (Operand × Operand)
  | some d, some v => .ok (d, v)
  | dst, src => .error (.missingOperand (presentCount dst src))

/-- `resolveRead` (40_data_movement.md R110). It changes no state. -/
def resolveRead (s : State) (pos : Position) : Operand → Except Error Word
  | .reg f => do
    let i ← regCheck pos f
    return s.regs.get i
  | .imm v => .ok v
  | .mem f => do
    let a ← memCheck s.params.memSize f.toInt
    return Memory.read s.mem a

/-- A destination of a class that can be written: register or memory, by its value field (40_data_movement.md R111). -/
inductive Place
  | reg (f : Word)
  | mem (f : Word)
deriving DecidableEq, Repr

/-- The class check of MOV's destination: an immediate raises `InvalidRegister(dst)` (40_data_movement.md R112). -/
def placeOf : Operand → Except Error Place
  | .reg f => .ok (.reg f)
  | .imm _ => .error (.invalidRegister .dst)
  | .mem f => .ok (.mem f)

/-- The class check of ADD, SUB, MUL and DIV: an operand that is no register raises `InvalidRegister(pos)`
(41_alu_arithmetic.md R123). -/
def registerField (pos : Position) : Operand → Except Error Word
  | .reg f => .ok f
  | .imm _ => .error (.invalidRegister pos)
  | .mem _ => .error (.invalidRegister pos)

/-- A checked write target (40_data_movement.md R111). -/
inductive Target
  | reg (i : Fin 4)
  | mem (a : Nat)
deriving DecidableEq, Repr

/-- `resolveTarget`: the check of a destination; it writes nothing (40_data_movement.md R111). -/
def resolveTarget (s : State) : Place → Except Error Target
  | .reg f => do
    let i ← regCheck .dst f
    return .reg i
  | .mem f => do
    let a ← memCheck s.params.memSize f.toInt
    return .mem a

/-- `commit`: the one write of a step (40_data_movement.md R111). -/
def commit (t : Target) (v : Word) (s : State) : State :=
  match t with
  | .reg i => { s with regs := s.regs.set i v }
  | .mem a => { s with mem := Memory.write s.mem a v }

end Sys2Proof.Machine
end

