-- ==== Sys2Proof/Machine/Alu.lean ====
section
/-! DEFINITION. The simple_alu (spec/41_alu_arithmetic.md R120 to R122, R124 to R127), for words of any width, and the
register-register form that ADD, SUB, MUL and DIV share (R123). -/

namespace Sys2Proof.Machine

/-- `clamp_W`: the word of a mathematical integer under an overflow policy (R121; log 4). -/
def clamp {w : Nat} (p : OverflowPolicy) (i : Int) : BitVec w :=
  match p with
  | .wrap => BitVec.ofInt w i
  | .saturate => BitVec.ofInt w (min (max i (intMin w)) (intMax w))

/-- `trunc_div(a, b)`: the quotient rounded toward zero, `b` not 0 (R122). -/
def truncDiv (a b : Int) : Int :=
  let q : Int := ((a.natAbs / b.natAbs : Nat) : Int)
  if a = 0 ∨ (0 < a ↔ 0 < b) then q else -q

/-- The exact result of an operation on two signed words, DIV with a nonzero divisor (R124 to R127). -/
def exactResult (op : AluOp) (a b : Int) : Int :=
  match op with
  | .add => a + b
  | .sub => a - b
  | .mul => a * b
  | .div => truncDiv a b

/-- `alu(op, a, b)`: a word, or `DivisionByZero` (R120). -/
def alu {w : Nat} (p : OverflowPolicy) (op : AluOp) (a b : BitVec w) : Except Error (BitVec w) :=
  if aluDivZero op b then .error .divisionByZero
  else .ok (clamp p (exactResult op a.toInt b.toInt))

/-- `RR(op)` up to the advance of `pc` (R123): arity, then the classes, then both reads, then the ALU, then the write and
the report. -/
def registerRegister (op : AluOp) (dst src : Option Operand) (s : State) : Except Error State := do
  let (d, v) ← bothOperands dst src
  let df ← registerField .dst d
  let sf ← registerField .src v
  let i ← regCheck .dst df
  let j ← regCheck .src sf
  let y ← alu s.params.overflow op (s.regs.get i) (s.regs.get j)
  return reportOk (.alu op) d v (commit (.reg i) y s)

end Sys2Proof.Machine
end

