-- ==== Sys2Proof/Machine/Arith.lean ====
section
/-! DEFINITION. ADD, SUB, MUL and DIV (spec/41_alu_arithmetic.md R124 to R127). -/

namespace Sys2Proof.Machine

/-- ADD (R124). -/
def execAdd (dst src : Option Operand) (s : State) : Host.Outcome State Fault Refusal :=
  settle s (registerRegister .add dst src s)

/-- SUB (R125). -/
def execSub (dst src : Option Operand) (s : State) : Host.Outcome State Fault Refusal :=
  settle s (registerRegister .sub dst src s)

/-- MUL (R126). -/
def execMul (dst src : Option Operand) (s : State) : Host.Outcome State Fault Refusal :=
  settle s (registerRegister .mul dst src s)

/-- DIV (R127). -/
def execDiv (dst src : Option Operand) (s : State) : Host.Outcome State Fault Refusal :=
  settle s (registerRegister .div dst src s)

end Sys2Proof.Machine
end

