-- ==== Sys2Proof/Machine/Control.lean ====
section
/-! DEFINITION. NOP, HLT, MISSING and the reserved opcodes (spec/42_control_and_sequencing.md R141 to R144). -/

namespace Sys2Proof.Machine

/-- NOP, a blank line: nothing but the advance of `pc`; no event (R141). -/
def execNop (s : State) : Host.Outcome State Fault Refusal := settle s (.ok s)

/-- HLT: the final event and the status; `pc` stays (R142). -/
def execHlt (s : State) : Host.Outcome State Fault Refusal :=
  .next { report (.halted s.pc) s with status := .halted }

/-- MISSING always raises `MissingInstruction` (R143). -/
def execMissing (s : State) : Host.Outcome State Fault Refusal := settle s (.error .missingInstruction)

/-- A reserved opcode always raises `UnknownInstruction(op)` (R144). -/
def execReserved (op : BitVec 4) (s : State) : Host.Outcome State Fault Refusal :=
  settle s (.error (.unknownInstruction op))

end Sys2Proof.Machine
end

