-- ==== Sys2Proof/Machine/Move.lean ====
section
/-! DEFINITION. MOV (spec/40_data_movement.md R112 to R114). -/

namespace Sys2Proof.Machine

/-- MOV up to the advance of `pc` (R112): arity, the destination's class, the source's read, the destination's check,
then the one write and the report. -/
def moveWord (dst src : Option Operand) (s : State) : Except Error State := do
  let (d, v) ← bothOperands dst src
  let p ← placeOf d
  let x ← resolveRead s .src v
  let t ← resolveTarget s p
  return reportOk .mov d v (commit t x s)

/-- MOV (R112). -/
def execMov (dst src : Option Operand) (s : State) : Host.Outcome State Fault Refusal :=
  settle s (moveWord dst src s)

end Sys2Proof.Machine
end

