-- ==== Sys2Proof/Machine/Step.lean ====
section
/-! DEFINITION. One step of the block (spec/42_control_and_sequencing.md R140), and the host's placing of a word where the
next step fetches. -/

namespace Sys2Proof.Machine

/-- One step: the line at `pc`, or the end of the input (R140, R145). -/
def step (s : State) : Host.Outcome State Fault Refusal :=
  match fetch s with
  | .error r => .fault r
  | .ok none => .next (exhaust s)
  | .ok (some w) => exec (decode w) s

/-- `s` with a table word as the line that the very next step runs (log 8). -/
def State.withFetchWord (s : State) (nbits w : Nat) : State := placeWord (tableWord nbits w) s

end Sys2Proof.Machine
end

