-- ==== Sys2Proof/Machine/Text.lean ====
section
/-! DEFINITION. Program text as bytes: lines, whitespace, tokens and numerals (spec/30_encoding.md R70, R74, R75, R78,
R81). No multi-byte UTF-8 character holds a byte that one of these rules names (log 12). -/

namespace Sys2Proof.Machine

/-- Line feed, which ends a line (R70). -/
def lineFeed : Byte := 0x0A

/-- The comma between operands (R78). -/
def comma : Byte := 0x2C

/-- `[`, which begins a memory token (R80). -/
def leftBracket : Byte := 0x5B

/-- The halt mnemonic `HLT` (R73). -/
def hltText : Text := [0x48, 0x4C, 0x54]

/-- The lines of a file: cut at each line feed, which belongs to no line; what follows the last one is a line only if it
is not empty; a carriage return stays (R70). -/
def splitLines : Text → List Text
  | [] => []
  | b :: t =>
    if b = lineFeed then [] :: splitLines t
    else match splitLines t with
      | [] => [[b]]
      | l :: ls => (b :: l) :: ls

/-- The whitespace characters: space, tab, LF, VT, FF and CR (R74). -/
def isSpace (b : Byte) : Bool :=
  b = 0x20 || b = 0x09 || b = 0x0A || b = 0x0B || b = 0x0C || b = 0x0D

/-- A text without its leading whitespace. -/
def trimLeading (t : Text) : Text := t.dropWhile isSpace

/-- The mnemonic of a line: the first run of non-whitespace characters after the leading whitespace (R75). -/
def mnemonicText (l : Text) : Text := (trimLeading l).takeWhile fun b => !isSpace b

/-- The operand text of a line: everything after its mnemonic (R75). -/
def operandText (l : Text) : Text := (trimLeading l).dropWhile fun b => !isSpace b

/-- A token without its leading whitespace; absent where nothing is left (R78). Trailing characters stay (R79). -/
def tokenOf (t : Text) : Option Text :=
  match trimLeading t with
  | [] => none
  | b :: r => some (b :: r)

/-- The two operand tokens: the text before the first comma and all the text after it (R78). -/
def operandTokens (t : Text) : Option Text × Option Text :=
  (tokenOf (t.takeWhile fun b => b != comma),
    match t.dropWhile fun b => b != comma with
    | [] => none
    | _ :: r => tokenOf r)

/-- A decimal digit `0` to `9`. -/
def isDigit (b : Byte) : Bool := decide (0x30 ≤ b.toNat) && decide (b.toNat ≤ 0x39)

/-- The value of a run of decimal digits, the first the most significant. -/
def decimalValue (ds : Text) : Nat := ds.foldl (fun n b => 10 * n + (b.toNat - 0x30)) 0

/-- The optional sign `+` or `-` of a numeral, and what follows it (R81). -/
def splitSign : Text → Int × Text
  | [] => (1, [])
  | b :: t => if b = 0x2D then (-1, t) else if b = 0x2B then (1, t) else (1, b :: t)

/-- The longest numeral `[+-]?[0-9]+` that a text begins with: its value and the text after it (R81, R82). -/
def leadingNumeral (t : Text) : Option (Int × Text) :=
  let (sign, body) := splitSign t
  match body.takeWhile isDigit with
  | [] => none
  | d :: ds => some (sign * decimalValue (d :: ds), body.dropWhile isDigit)

end Sys2Proof.Machine
end

