-- ==== Sys2Proof/Machine/FrontEnd.lean ====
section
/-! DEFINITION. The front end: the class of a line, its operands, and its one instruction word (spec/30_encoding.md R71 to
R84, R96). -/

namespace Sys2Proof.Machine

/-- Why a line refuses its whole program (R81 to R83). -/
inductive LineRefusal
  /-- The characters after `[` begin with no numeral (R81). Safe: the program has no run. -/
  | malformedAddress
  /-- A numeral outside `[INT_MIN, INT_MAX]` (R81, R82). Safe: the program has no run. -/
  | numeralOutOfRange
  /-- An immediate that is not a numeral as a whole, under `IMM_PARSE = strict` (R82). Safe: the program has no run. -/
  | malformedImmediate
deriving DecidableEq, Repr

/-- The class of a line (R71, R76, R77). -/
inductive LineClass
  /-- Empty (R72). -/
  | blank
  /-- Begins with `HLT` after leading whitespace (R73). -/
  | halt
  /-- Only whitespace (R76). -/
  | noMnemonic
  /-- A mnemonic that is none of the five (R77). -/
  | unknown
  /-- One of the five mnemonics, with its operand tokens (R78). -/
  | instruction (m : Mnemonic) (dst src : Option Text)
deriving DecidableEq, Repr

/-- The text of the registers' names (00_scope.md R7). -/
def registerName (p : Params) : Fin 4 → Text
  | 0 => [0x61, 0x78]
  | 1 => [0x61, 0x62]
  | 2 => p.regName2
  | 3 => p.regName3

/-- A name of register 2 or 3 begins with no `[` and holds no whitespace and no comma (00_scope.md R7). -/
def nameAdmitted (t : Text) : Bool :=
  decide (t.head? ≠ some leftBracket) && t.all fun b => !isSpace b && b != comma

/-- The parameters that 00_scope.md R7 admits, at W = 32: the memory size, and the two open names, distinct from each other
and from `ax` and `ab`. `PC_MAX` holds at least the counter's first value (10_state.md R25). -/
def paramsAdmitted (p : Params) : Bool :=
  decide (1 ≤ p.memSize) && decide (p.memSize ≤ 2 ^ 31) && decide (1 ≤ p.pcMax)
    && nameAdmitted p.regName2 && nameAdmitted p.regName3
    && decide (p.regName2 ≠ p.regName3)
    && decide (p.regName2 ≠ registerName p 0) && decide (p.regName2 ≠ registerName p 1)
    && decide (p.regName3 ≠ registerName p 0) && decide (p.regName3 ≠ registerName p 1)

/-- The mnemonics of a general line, character for character (R77). -/
def mnemonicOf (t : Text) : Option Mnemonic :=
  if t = [0x4D, 0x4F, 0x56] then some .mov
  else if t = [0x41, 0x44, 0x44] then some (.alu .add)
  else if t = [0x53, 0x55, 0x42] then some (.alu .sub)
  else if t = [0x4D, 0x55, 0x4C] then some (.alu .mul)
  else if t = [0x44, 0x49, 0x56] then some (.alu .div)
  else none

/-- The first of R71's tests that holds, and the parts of a general line (R75 to R78). -/
def classifyLine (l : Text) : LineClass :=
  if l = [] then .blank
  else if hltText.isPrefixOf (trimLeading l) then .halt
  else if mnemonicText l = [] then .noMnemonic
  else match mnemonicOf (mnemonicText l) with
    | none => .unknown
    | some m => .instruction m (operandTokens (operandText l)).1 (operandTokens (operandText l)).2

/-- The register a token names, if any (R80 test 1). -/
def registerOf (p : Params) (t : Text) : Option (Fin 4) :=
  if t = registerName p 0 then some 0
  else if t = registerName p 1 then some 1
  else if t = registerName p 2 then some 2
  else if t = registerName p 3 then some 3
  else none

/-- `word(v)` of a numeral's value, refused outside `[INT_MIN, INT_MAX]` (R81, R82). -/
def numeralWord (v : Int) : Except LineRefusal Word :=
  if intMin 32 ≤ v ∧ v ≤ intMax 32 then .ok (BitVec.ofInt 32 v) else .error .numeralOutOfRange

/-- The address of a memory token, from the text after its `[` (R81). -/
def memoryToken (t : Text) : Except LineRefusal Operand :=
  match leadingNumeral t with
  | none => .error .malformedAddress
  | some (v, _) => (numeralWord v).map .mem

/-- The value of an immediate token under `IMM_PARSE` (R82). -/
def immediateToken (mode : ImmParse) (t : Text) : Except LineRefusal Operand :=
  match leadingNumeral t, mode with
  | none, .permissive => .ok (.imm 0)
  | none, .strict => .error .malformedImmediate
  | some (v, _), .permissive => (numeralWord v).map .imm
  | some (v, []), .strict => (numeralWord v).map .imm
  | some (_, _ :: _), .strict => .error .malformedImmediate

/-- The operand of a present token, first test that holds (R80; values as R96 maps them). -/
def classifyToken (p : Params) (t : Text) : Except LineRefusal Operand :=
  match registerOf p t with
  | some i => .ok (.reg (BitVec.ofNat 32 i.val))
  | none =>
    match t with
    | [] => immediateToken p.immParse []
    | b :: r => if b = leftBracket then memoryToken r else immediateToken p.immParse (b :: r)

/-- The operand of a token that may be absent (R96). -/
def operandToken (p : Params) : Option Text → Except LineRefusal (Option Operand)
  | none => .ok none
  | some t => (classifyToken p t).map some

/-- The instruction of a mnemonic and its operands (R96). -/
def instructionOf (m : Mnemonic) (dst src : Option Operand) : Instr :=
  match m with
  | .mov => .mov dst src
  | .alu .add => .add dst src
  | .alu .sub => .sub dst src
  | .alu .mul => .mul dst src
  | .alu .div => .div dst src

/-- The instruction of a line, or why its program is refused (R83, R96). Only the operands of the five mnemonics are ever
parsed (R83). -/
def lineInstr (p : Params) (l : Text) : Except LineRefusal Instr :=
  match classifyLine l with
  | .blank => .ok .nop
  | .halt => .ok .hlt
  | .noMnemonic => .ok .missing
  | .unknown => .ok (.reserved 0xF)
  | .instruction m t1 t2 => do
    let dst ← operandToken p t1
    let src ← operandToken p t2
    return instructionOf m dst src

/-- The one instruction word of a line (R96). -/
def lineWord (p : Params) (l : Text) : Except LineRefusal InstrWord := (lineInstr p l).map encode

/-- The words of a program's lines, in file order; a refused line is named by its number, counted from `k` (R83, R96). -/
def programWords (p : Params) (k : Nat) : List Text → Except (Nat × LineRefusal) (List InstrWord)
  | [] => .ok []
  | l :: ls =>
    match lineWord p l with
    | .error r => .error (k, r)
    | .ok w => (programWords p (k + 1) ls).map (w :: ·)

end Sys2Proof.Machine
end

