-- ==== Sys2Proof/Machine/Launch.lean ====
section
/-! DEFINITION. The launch of a run (spec/70_reset_and_hazards.md R190, R191; log 8). It is no step: it gives a start state,
a launch failure, or no run at all. -/

namespace Sys2Proof.Machine

/-- Why there is no run (30_encoding.md R83; 42_control_and_sequencing.md R149; 00_scope.md R7). Each is safe: nothing is
claimed of a run that does not exist. -/
inductive LaunchRefusal
  /-- Parameters outside the ranges of 00_scope.md R7 (log 17). -/
  | parametersNotAdmitted
  /-- More than `PC_MAX - 1` lines (R149). -/
  | programTooLong
  /-- A line that refuses the program (R83). -/
  | lineRefused (line : Nat) (r : LineRefusal)
deriving DecidableEq, Repr

/-- What a launch comes to (R190, R191). -/
inductive LaunchOutcome
  | started (s : State)
  /-- The program file could not be opened: no step, no event, no end state (R191; 60_exceptions.md R167). -/
  | fileOpenFailure
  | refused (r : LaunchRefusal)
deriving DecidableEq, Repr

/-- The launch, in R190's order: the size is fixed, the file is read (`none`: it cannot be opened), every line is checked and
translated, the state takes its initial values. -/
def launch (p : Params) (file : Option Text) : LaunchOutcome :=
  if paramsAdmitted p then
    match file with
    | none => .fileOpenFailure
    | some t =>
      if (splitLines t).length + 1 ≤ p.pcMax then
        match programWords p 1 (splitLines t) with
        | .error (k, r) => .refused (.lineRefused k r)
        | .ok ws => .started (State.initial p ws)
      else .refused .programTooLong
  else .refused .parametersNotAdmitted

/-- The error kind of a launch that fails, with its code in `ErrorKind.code` (60_exceptions.md R160, R167). -/
def LaunchOutcome.errorKind : LaunchOutcome → Option ErrorKind
  | .started _ => none
  | .fileOpenFailure => some .fileOpenFailure
  | .refused _ => none

end Sys2Proof.Machine
end

