-- ==== Sys2Proof/Machine/Ports.lean ====
section
/-! DEFINITION. The three sub-blocks by their ports (spec/10_state.md R24, spec/20_memory.md R64, spec/41_alu_arithmetic.md
R120), and one step of MOV and of ADD to DIV over nothing but those ports. Reads are combinational in the state at the
start of the step; the one write commits at its end. Which operand drives which port is DEDUCED (log 16). -/

namespace Sys2Proof.Machine

/-- `rf_ra_data` or `rf_rb_data`: any value on a bad index (R24). -/
def rfData (x : RegFile) (idx : Word) : Word :=
  match regCheck .dst idx with
  | .ok i => x.get i
  | .error _ => Config.rfBadData idx

/-- `rf_we`, `rf_wa_idx`, `rf_wd` (R24). -/
structure RfWrite where
  we : Bool
  waIdx : BitVec 2
  wd : Word
deriving DecidableEq, Repr

/-- The register file after the step (R24). -/
def rfCommit (x : RegFile) (w : RfWrite) : RegFile :=
  if w.we then x.set w.waIdx.toFin w.wd else x

/-- `mem_rd`: any value at a bad address (R64). -/
def memData (n : Nat) (m : Memory) (ra : Word) : Word :=
  if memBad n ra.toInt then Config.memBadData ra else Memory.read m ra.toInt.toNat

/-- `mem_we`, `mem_wa`, `mem_wd` (R64). -/
structure MemWrite where
  we : Bool
  wa : Word
  wd : Word
deriving DecidableEq, Repr

/-- The memory after the step (R64). -/
def memCommit (m : Memory) (w : MemWrite) : Memory :=
  if w.we then Memory.write m w.wa.toInt.toNat w.wd else m

/-- The operation an `alu_op` selects (R120). -/
def aluOpOf (op : BitVec 4) : Option AluOp :=
  match op.toNat with
  | 2 => some .add
  | 3 => some .sub
  | 4 => some .mul
  | 5 => some .div
  | _ => none

/-- The `alu_op` of an operation (R120). -/
def aluOpCode : AluOp → BitVec 4
  | .add => 2
  | .sub => 3
  | .mul => 4
  | .div => 5

/-- `alu_y` (R120): a free value where R124 to R127 give no result. -/
def aluY (p : OverflowPolicy) (op : BitVec 4) (a b : Word) : Word :=
  match aluOpOf op with
  | none => Config.aluNoResult op a b
  | some o =>
    match alu p o a b with
    | .ok y => y
    | .error _ => Config.aluNoResult op a b

/-- `alu_dz` (R120). -/
def aluDz (op : BitVec 4) (b : Word) : Bool := decide (op = 5) && decide (b.toInt = 0)

/-- The end of a step's datapath: both commits, then the report. -/
def commitPorts (m : Mnemonic) (d v : Operand) (rw : RfWrite) (mw : MemWrite) (s : State) : State :=
  reportOk m d v { s with regs := rfCommit s.regs rw, mem := memCommit s.mem mw }

/-- MOV over the ports: the source drives `rf_rb_idx` and `mem_ra`, the destination `rf_ra_idx`, `rf_wa_idx` and `mem_wa`;
the bad signals raise first, in the order of 60_exceptions.md R168. -/
def moveByPorts (dst src : Option Operand) (s : State) : Except Error State :=
  match dst, src with
  | some d, some v =>
    let n := s.params.memSize
    let datum := match v with
      | .reg f => rfData s.regs f
      | .imm x => x
      | .mem f => memData n s.mem f
    let toReg := match d with
      | .reg _ => true
      | .imm _ => false
      | .mem _ => false
    let toMem := match d with
      | .reg _ => false
      | .imm _ => false
      | .mem _ => true
    let srcReg := match v with
      | .reg _ => true
      | .imm _ => false
      | .mem _ => false
    let srcMem := match v with
      | .reg _ => false
      | .imm _ => false
      | .mem _ => true
    if !toReg && !toMem then .error (.invalidRegister .dst)
    else if srcReg && rfBad (valueField (some v)) then .error (.invalidRegister .src)
    else if srcMem && memBad n (valueField (some v)).toInt then .error (.addressOutOfRange (valueField (some v)).toInt)
    else if toReg && rfBad (valueField (some d)) then .error (.invalidRegister .dst)
    else if toMem && memBad n (valueField (some d)).toInt then .error (.addressOutOfRange (valueField (some d)).toInt)
    else .ok (commitPorts .mov d v
      { we := toReg, waIdx := (valueField (some d)).setWidth 2, wd := datum }
      { we := toMem, wa := valueField (some d), wd := datum } s)
  | _, _ => .error (.missingOperand (presentCount dst src))

/-- ADD, SUB, MUL and DIV over the ports: `alu_a` is read port A at the destination, `alu_b` read port B at the source. -/
def registerRegisterByPorts (op : AluOp) (dst src : Option Operand) (s : State) : Except Error State :=
  match dst, src with
  | some d, some v =>
    match registerField .dst d, registerField .src v with
    | .error e, _ => .error e
    | .ok _, .error e => .error e
    | .ok ra, .ok rb =>
      let a := rfData s.regs ra
      let b := rfData s.regs rb
      if rfBad ra then .error (.invalidRegister .dst)
      else if rfBad rb then .error (.invalidRegister .src)
      else if aluDz (aluOpCode op) b then .error .divisionByZero
      else .ok (commitPorts (.alu op) d v
        { we := true, waIdx := ra.setWidth 2, wd := aluY s.params.overflow (aluOpCode op) a b }
        { we := false, wa := 0, wd := 0 } s)
  | _, _ => .error (.missingOperand (presentCount dst src))

end Sys2Proof.Machine
end

