-- ==== Sys2Proof/Safety.lean ====
section
/-! DEFINITION. The terms that statements use: runs of many steps, the order in which errors are reported
(spec/60_exceptions.md R168), and the invariant of a run (spec/10_state.md R20, R25, R27, R29). -/

namespace Sys2Proof.Machine

/-- At most `n` steps, as far as the run goes on. -/
def runSteps : Nat → State → State
  | 0, s => s
  | n + 1, s =>
    match step s with
    | .next t => runSteps n t
    | .fault _ => s
    | .refused _ => s

/-- The instruction of an ALU operation. -/
def aluInstr (op : AluOp) (dst src : Option Operand) : Instr := instructionOf (.alu op) dst src

/-- `s` after an instruction that wrote word `x` to register `i` and reported it (10_state.md R23, R27): nothing else but
`pc` differs. -/
def wroteRegister (m : Mnemonic) (d v : Operand) (i : Fin 4) (x : Word) (s : State) : State :=
  { s with
    regs := s.regs.set i x
    pc := s.pc + 1
    trace := s.trace ++ [.ok s.pc m d v (s.regs.set i x)] }

/-- `s` after an instruction that wrote word `x` to the memory cell `a` and reported it (20_memory.md R52, 10_state.md R27):
nothing else but `pc` differs. -/
def wroteMemory (m : Mnemonic) (d v : Operand) (a : Nat) (x : Word) (s : State) : State :=
  { s with
    mem := Memory.write s.mem a x
    pc := s.pc + 1
    trace := s.trace ++ [.ok s.pc m d v s.regs] }

/-- `s` after an instruction that raised `e` (60_exceptions.md R169): nothing but the trace and `pc` differs. -/
def failedWith (e : Error) (s : State) : State :=
  { s with
    pc := s.pc + 1
    trace := s.trace ++ [.err s.pc e] }

/-- The register that an operand field names, for fields below 4. -/
def registerAt (f : Word) : Fin 4 := Fin.ofNat 4 f.toNat

/-- An operand's class is register. -/
def isRegister : Operand → Bool
  | .reg _ => true
  | .imm _ => false
  | .mem _ => false

/-- An operand's class is immediate. -/
def isImmediate : Operand → Bool
  | .reg _ => false
  | .imm _ => true
  | .mem _ => false

/-- An operand is a register operand whose index names no register. -/
def namesNoRegister : Operand → Bool
  | .reg f => decide (4 ≤ f.toNat)
  | .imm _ => false
  | .mem _ => false

/-- An operand is a memory operand whose address lies outside `[0, n)`. -/
def outOfRange (n : Nat) : Operand → Bool
  | .reg _ => false
  | .imm _ => false
  | .mem f => decide (f.toInt < 0 ∨ (n : Int) ≤ f.toInt)

/-- An operand is a register operand, and its register holds 0. -/
def holdsZero (s : State) : Operand → Bool
  | .reg f => decide (s.regs.get (registerAt f) = 0)
  | .imm _ => false
  | .mem _ => false

/-- An operand's value field read as a signed address. -/
def addressOf (o : Operand) : Int := (valueField (some o)).toInt

/-- The errors that an instruction with two present operands may raise, in the order of R168 steps 3 to 6, each with its
condition. -/
def operandErrors (m : Mnemonic) (d v : Operand) (s : State) : List (Bool × Error) :=
  match m with
  | .mov =>
    [ (isImmediate d, .invalidRegister .dst),
      (namesNoRegister v, .invalidRegister .src),
      (outOfRange s.params.memSize v, .addressOutOfRange (addressOf v)),
      (namesNoRegister d, .invalidRegister .dst),
      (outOfRange s.params.memSize d, .addressOutOfRange (addressOf d)) ]
  | .alu op =>
    [ (!isRegister d, .invalidRegister .dst),
      (!isRegister v, .invalidRegister .src),
      (namesNoRegister d, .invalidRegister .dst),
      (namesNoRegister v, .invalidRegister .src),
      (decide (op = .div) && holdsZero s v, .divisionByZero) ]

/-- The errors of a two-operand instruction in R168's order, arity first (step 2). -/
def instructionErrors (m : Mnemonic) (dst src : Option Operand) (s : State) : List (Bool × Error) :=
  match dst, src with
  | some d, some v => operandErrors m d v s
  | none, none => [(true, .missingOperand 0)]
  | some _, none => [(true, .missingOperand 1)]
  | none, some _ => [(true, .missingOperand 1)]

/-- Every error that may apply to an instruction, in the order of 60_exceptions.md R168, each with its condition. -/
def errorChecks (i : Instr) (s : State) : List (Bool × Error) :=
  match i with
  | .nop => []
  | .mov dst src => instructionErrors .mov dst src s
  | .add dst src => instructionErrors (.alu .add) dst src s
  | .sub dst src => instructionErrors (.alu .sub) dst src s
  | .mul dst src => instructionErrors (.alu .mul) dst src s
  | .div dst src => instructionErrors (.alu .div) dst src s
  | .hlt => []
  | .missing => [(true, .missingInstruction)]
  | .reserved op => [(true, .unknownInstruction op)]

/-- The one error that R168 says an instruction reports: the first that applies. -/
def firstError (i : Instr) (s : State) : Option Error :=
  ((errorChecks i s).find? fun c => c.1).map fun c => c.2

/-- The line number that an event records (10_state.md R27). -/
def Event.line : Event → Nat
  | .ok pc _ _ _ _ => pc
  | .err pc _ => pc
  | .halted pc => pc
  | .exhausted pc => pc

/-- An event of one instruction, not the final event of a run (60_exceptions.md R177). -/
def Event.isStep : Event → Bool
  | .ok _ _ _ _ _ => true
  | .err _ _ => true
  | .halted _ => false
  | .exhausted _ => false

/-- The information that an event of an error may hold, in a memory of `n` words (60_exceptions.md R160, R162, R165,
R166). -/
def Error.infoLegal (n : Nat) : Error → Prop
  | .invalidRegister _ => True
  | .addressOutOfRange a => a < 0 ∨ (n : Int) ≤ a
  | .divisionByZero => True
  | .missingInstruction => True
  | .missingOperand k => k = 0 ∨ k = 1
  | .unknownInstruction op => 8 ≤ op.toNat

/-- The events of a run's instructions before line `pc`: at most one a line, in the order of the lines, none of them final,
every error with information it may hold. -/
structure StepEvents (n pc : Nat) (t : List Event) : Prop where
  ordered : (t.map Event.line).Pairwise (· < ·)
  earlier : ∀ e ∈ t, 1 ≤ e.line ∧ e.line < pc
  steps : ∀ e ∈ t, e.isStep = true
  legal : ∀ k x, Event.err k x ∈ t → Error.infoLegal n x

/-- The trace that a status goes with: no final event while running, and exactly one, the last, when the run is over
(42_control_and_sequencing.md R147). -/
def traceOk (s : State) : Prop :=
  match s.status with
  | .running => StepEvents s.params.memSize s.pc s.trace
  | .halted => s.pc ≤ s.prog.length ∧
      ∃ t, s.trace = t ++ [.halted s.pc] ∧ StepEvents s.params.memSize s.pc t
  | .exhausted => s.pc = s.prog.length + 1 ∧
      ∃ t, s.trace = t ++ [.exhausted s.pc] ∧ StepEvents s.params.memSize s.pc t

/-- THE INVARIANT OF A RUN: what holds in every state that a launched program reaches. -/
structure RunInv (s : State) : Prop where
  /-- The parameters are ones that 00_scope.md R7 admits, with a `PC_MAX` of 1 or more (log 6, log 17). -/
  admitted : paramsAdmitted s.params = true
  /-- The memory is in canonical form. -/
  canonical : Memory.wf s.mem = true
  /-- Only cells below N are written (20_memory.md R51, R52). -/
  bounded : ∀ c ∈ s.mem, c.1 < s.params.memSize
  /-- The program counter is a line number, or one past the last line (10_state.md R25; 42_control_and_sequencing.md R145). -/
  pcLow : 1 ≤ s.pc
  pcHigh : s.pc ≤ s.prog.length + 1
  /-- The program is short enough for the program counter (42_control_and_sequencing.md R149). -/
  fits : s.prog.length + 1 ≤ s.params.pcMax
  /-- The trace goes with the status. -/
  trace : traceOk s

end Sys2Proof.Machine
end

