-- ==== Sys2Proof/Certificates/Slice0/Obligations.lean ====
section
/-! DEFINITION. The statements for the provers. Each docstring names the rules of spec/ it rests on. -/

open Sys2Proof Sys2Proof.Machine

/-! ### Instruction words -/

/-- No bit of an instruction is lost in its word (30_encoding.md R86 to R89). -/
def Obligations.DecodeOfEncodeIsTheInstruction : Prop :=
  ∀ i : Instr, i.wf = true → decode (encode i) = i

/-- A word of MOV, ADD, SUB, MUL or DIV with two present operands is the encoding of what it decodes to: all 72 bits are
read (30_encoding.md R86 to R88, R92). -/
def Obligations.EncodeOfDecodeIsTheWord : Prop :=
  ∀ w : InstrWord, 1 ≤ (opField w).toNat → (opField w).toNat ≤ 5 → dkField w ≠ 0 → skField w ≠ 0 →
    encode (decode w) = w

/-- Every word selects one row of the opcode map, by its `op` field alone, and no other row (30_encoding.md R89, R94). -/
def Obligations.EveryWordSelectsTheRowOfItsOpcode : Prop :=
  ∀ w : InstrWord, opcode (decode w) = opField w ∧ (decode w).wf = true

/-- NOP, HLT, MISSING and the reserved words ignore their operand fields; an absent operand ignores its value field
(30_encoding.md R88, R92). -/
def Obligations.IgnoredFieldsChangeNothing : Prop :=
  (∀ w w' : InstrWord, opField w = opField w' → (opField w = 0 ∨ 6 ≤ (opField w).toNat) → decode w = decode w') ∧
    ∀ (op : BitVec 4) (dk sk : BitVec 2) (dv dv' sv sv' : Word),
      (dk = 0 → decode (packWord op dk sk dv sv) = decode (packWord op dk sk dv' sv)) ∧
        (sk = 0 → decode (packWord op dk sk dv sv) = decode (packWord op dk sk dv sv'))

/-- The example words of 30_encoding.md R96, and one reserved word. -/
def Obligations.ExampleWordsDecode : Prop :=
  decode 0x000000050000000091 = .mov (some (.reg 0)) (some (.imm 5)) ∧
    decode 0x000000010000000052 = .add (some (.reg 0)) (some (.reg 1)) ∧
    decode 0x000000000000000006 = .hlt ∧
    decode 0xFFFFFFFBFFFFFFFFB1 = .mov (some (.mem (-1))) (some (.imm (-5))) ∧
    decode 0x000000000000000000 = .nop ∧
    decode 0x00000000000000000F = .reserved 0xF

/-! ### The step -/

/-- A step runs the instruction that the word at `pc` decodes to, and adds nothing to it
(42_control_and_sequencing.md R140). -/
def Obligations.StepRunsTheDecodedInstruction : Prop :=
  ∀ (s : State) (w : InstrWord) (i : Instr), s.status = .running → 1 ≤ s.pc → s.prog[s.pc - 1]? = some w →
    decode w = i → i.wf = true → step s = exec i s

/-- The end of the input (42_control_and_sequencing.md R145): past the last line the step reports `Exhausted(L + 1)` and
ends the run; an empty program does so at once. -/
def Obligations.EndOfInputReportsExhausted : Prop :=
  (∀ s : State, s.status = .running → s.pc = s.prog.length + 1 →
    step s = .next { s with status := .exhausted, trace := s.trace ++ [.exhausted (s.prog.length + 1)] }) ∧
    ∀ p : Params, step (State.initial p []) =
      .next { State.initial p [] with status := .exhausted, trace := [.exhausted 1] }

/-- Once the status is not Running there is no further step (10_state.md R29). That the model shows this as the fault
`runEnded` is the model's choice (log 9). -/
def Obligations.NoStepAfterTheRunEnds : Prop :=
  ∀ s : State, s.status ≠ .running → step s = .fault .runEnded

/-- Every instruction completes in every state, and none makes the block stop but HLT (30_encoding.md R94;
60_exceptions.md R170, R172). -/
def Obligations.EveryInstructionCompletes : Prop :=
  ∀ (i : Instr) (s : State), ∃ t, exec i s = .next t ∧ (i ≠ .hlt → t.status = s.status) ∧ (i = .hlt → t.status = .halted)

/-- The program counter's advance (10_state.md R26): by 1 for every line but a halt line, and no other change. -/
def Obligations.ProgramCounterAdvancesByOne : Prop :=
  (∀ (i : Instr) (s t : State), exec i s = .next t → t.pc = if i = .hlt then s.pc else s.pc + 1) ∧
    ∀ s t : State, step s = .next t → s.prog[s.pc - 1]? = none → t.pc = s.pc

/-- Each step appends at most one event, of its own line; only a NOP's line appends none (42_control_and_sequencing.md
R140, R141). -/
def Obligations.EachStepAppendsAtMostOneEvent : Prop :=
  ∀ s t : State, step s = .next t →
    (∃ ev : Event, ev.line = s.pc ∧ t.trace = s.trace ++ [ev]) ∨
      (t.trace = s.trace ∧ ∃ w, s.prog[s.pc - 1]? = some w ∧ decode w = .nop)

/-- No step writes the program store or changes a parameter, the memory size among them (20_memory.md R50, R51, R62). -/
def Obligations.ProgramAndParametersNeverChange : Prop :=
  ∀ s t : State, step s = .next t → t.prog = s.prog ∧ t.params = s.params

/-- An `Ok` event names the line, the instruction and its operands, and shows the registers after the instruction's write
(10_state.md R27; 42_control_and_sequencing.md R140). -/
def Obligations.SuccessReportShowsTheNewRegisters : Prop :=
  ∀ (i : Instr) (s t : State) (k : Nat) (m : Mnemonic) (d v : Operand) (x : RegFile),
    exec i s = .next t → t.trace = s.trace ++ [.ok k m d v x] →
      k = s.pc ∧ i = instructionOf m (some d) (some v) ∧ x = t.regs

/-! ### NOP, HLT, MISSING, reserved -/

/-- NOP changes nothing but `pc`, and reports nothing (42_control_and_sequencing.md R141). -/
def Obligations.NopOnlyAdvances : Prop :=
  ∀ s : State, exec .nop s = .next { s with pc := s.pc + 1 }

/-- HLT reports its line and ends the run; `pc`, registers and memory stay (42_control_and_sequencing.md R142). -/
def Obligations.HltEndsTheRunAtItsLine : Prop :=
  ∀ s : State, exec .hlt s = .next { s with status := .halted, trace := s.trace ++ [.halted s.pc] }

/-- MISSING always raises `MissingInstruction` (42_control_and_sequencing.md R143). -/
def Obligations.MissingRaisesMissingInstruction : Prop :=
  ∀ s : State, exec .missing s = .next (failedWith .missingInstruction s)

/-- A reserved opcode always raises `UnknownInstruction(op)`, whatever the other fields of its word
(42_control_and_sequencing.md R144). -/
def Obligations.ReservedRaisesUnknownInstruction : Prop :=
  ∀ (op : BitVec 4) (s : State), exec (.reserved op) s = .next (failedWith (.unknownInstruction op) s)

/-! ### MOV -/

/-- The table of MOV's forms and outcomes (40_data_movement.md R113): every pair of present operand kinds, every register
index below 4. -/
def Obligations.MovFormsHaveTheOutcomesOfTheTable : Prop :=
  ∀ (s : State) (d r b a x : Word) (hd : d.toNat < 4) (hr : r.toNat < 4),
    let n : Int := s.params.memSize
    let inRange (f : Word) : Prop := 0 ≤ f.toInt ∧ f.toInt < n
    let cell (f : Word) : Word := Memory.read s.mem f.toInt.toNat
    let i : Fin 4 := ⟨d.toNat, hd⟩
    let y : Word := s.regs.get ⟨r.toNat, hr⟩
    let bad (f : Word) : Error := .addressOutOfRange f.toInt
    (exec (.mov (some (.reg d)) (some (.reg r))) s = .next (wroteRegister .mov (.reg d) (.reg r) i y s)) ∧
    (exec (.mov (some (.reg d)) (some (.imm x))) s = .next (wroteRegister .mov (.reg d) (.imm x) i x s)) ∧
    (inRange a → exec (.mov (some (.reg d)) (some (.mem a))) s =
      .next (wroteRegister .mov (.reg d) (.mem a) i (cell a) s)) ∧
    (¬inRange a → exec (.mov (some (.reg d)) (some (.mem a))) s = .next (failedWith (bad a) s)) ∧
    (inRange b → exec (.mov (some (.mem b)) (some (.reg r))) s =
      .next (wroteMemory .mov (.mem b) (.reg r) b.toInt.toNat y s)) ∧
    (¬inRange b → exec (.mov (some (.mem b)) (some (.reg r))) s = .next (failedWith (bad b) s)) ∧
    (inRange b → exec (.mov (some (.mem b)) (some (.imm x))) s =
      .next (wroteMemory .mov (.mem b) (.imm x) b.toInt.toNat x s)) ∧
    (¬inRange b → exec (.mov (some (.mem b)) (some (.imm x))) s = .next (failedWith (bad b) s)) ∧
    (inRange a → inRange b → exec (.mov (some (.mem b)) (some (.mem a))) s =
      .next (wroteMemory .mov (.mem b) (.mem a) b.toInt.toNat (cell a) s)) ∧
    (¬inRange a → exec (.mov (some (.mem b)) (some (.mem a))) s = .next (failedWith (bad a) s)) ∧
    (inRange a → ¬inRange b → exec (.mov (some (.mem b)) (some (.mem a))) s = .next (failedWith (bad b) s)) ∧
    ∀ v : Operand, v = .reg r ∨ v = .imm x ∨ v = .mem a →
      exec (.mov (some (.imm b)) (some v)) s = .next (failedWith (.invalidRegister .dst) s)

/-- MOV changes exactly one cell (40_data_movement.md R114): after `MOV reg, imm` the register reads the immediate; a
successful MOV writes nothing but its destination; a failed one writes nothing. -/
def Obligations.MovChangesOnlyItsDestination : Prop :=
  ∀ (s t : State) (dst src : Option Operand), exec (.mov dst src) s = .next t →
    (∀ (d x : Word) (hd : d.toNat < 4), dst = some (.reg d) → src = some (.imm x) →
      t.regs.get ⟨d.toNat, hd⟩ = x) ∧
    (∀ j : Fin 4, (∀ d : Word, dst = some (.reg d) → d.toNat ≠ j.val) → t.regs.get j = s.regs.get j) ∧
    (∀ c : Nat, (∀ b : Word, dst = some (.mem b) → b.toInt ≠ c) → Memory.read t.mem c = Memory.read s.mem c) ∧
    (firstError (.mov dst src) s ≠ none → t.regs = s.regs ∧ t.mem = s.mem) ∧
    t.status = s.status ∧ t.prog = s.prog ∧ t.params = s.params

/-- A MOV to memory that succeeds leaves the source's word, read before the write, in its cell (20_memory.md R52, R59;
70_reset_and_hazards.md R195). The memory is in canonical form, which every step keeps (`StepKeepsTheInvariant`). -/
def Obligations.MovToMemoryReadsBack : Prop :=
  ∀ (s : State) (b x : Word) (v : Operand), Memory.wf s.mem = true → 0 ≤ b.toInt → b.toInt < s.params.memSize →
    resolveRead s .src v = .ok x →
      ∃ t, exec (.mov (some (.mem b)) (some v)) s = .next t ∧ Memory.read t.mem b.toInt.toNat = x ∧
        t.regs = s.regs ∧ t.pc = s.pc + 1

/-- A MOV from a register or a cell to itself that raises no error succeeds and leaves registers and memory as they were
(40_data_movement.md R112; 70_reset_and_hazards.md R195). The memory is in canonical form, which every step keeps
(`StepKeepsTheInvariant`). -/
def Obligations.MovToItselfChangesNothing : Prop :=
  ∀ (s : State) (o : Operand), Memory.wf s.mem = true → firstError (.mov (some o) (some o)) s = none →
    exec (.mov (some o) (some o)) s =
      .next { s with pc := s.pc + 1, trace := s.trace ++ [.ok s.pc .mov o o s.regs] }

/-! ### ADD, SUB, MUL, DIV -/

/-- ADD of two registers (41_alu_arithmetic.md R123, R124): the old words are added exactly and clamped; `pc` and the report
aside, nothing but the destination changes. -/
def Obligations.AddWritesTheClampedSum : Prop :=
  ∀ (s : State) (d r : Word) (hd : d.toNat < 4) (hr : r.toNat < 4),
    exec (.add (some (.reg d)) (some (.reg r))) s =
      .next (wroteRegister (.alu .add) (.reg d) (.reg r) ⟨d.toNat, hd⟩
        (clamp s.params.overflow ((s.regs.get ⟨d.toNat, hd⟩).toInt + (s.regs.get ⟨r.toNat, hr⟩).toInt)) s)

/-- SUB of two registers (41_alu_arithmetic.md R123, R125): destination minus source. -/
def Obligations.SubWritesTheClampedDifference : Prop :=
  ∀ (s : State) (d r : Word) (hd : d.toNat < 4) (hr : r.toNat < 4),
    exec (.sub (some (.reg d)) (some (.reg r))) s =
      .next (wroteRegister (.alu .sub) (.reg d) (.reg r) ⟨d.toNat, hd⟩
        (clamp s.params.overflow ((s.regs.get ⟨d.toNat, hd⟩).toInt - (s.regs.get ⟨r.toNat, hr⟩).toInt)) s)

/-- MUL of two registers (41_alu_arithmetic.md R123, R126). -/
def Obligations.MulWritesTheClampedProduct : Prop :=
  ∀ (s : State) (d r : Word) (hd : d.toNat < 4) (hr : r.toNat < 4),
    exec (.mul (some (.reg d)) (some (.reg r))) s =
      .next (wroteRegister (.alu .mul) (.reg d) (.reg r) ⟨d.toNat, hd⟩
        (clamp s.params.overflow ((s.regs.get ⟨d.toNat, hd⟩).toInt * (s.regs.get ⟨r.toNat, hr⟩).toInt)) s)

/-- DIV of two registers (41_alu_arithmetic.md R122, R123, R127): the quotient rounded toward zero and clamped, or
`DivisionByZero` with nothing written. -/
def Obligations.DivWritesTheClampedQuotient : Prop :=
  ∀ (s : State) (d r : Word) (hd : d.toNat < 4) (hr : r.toNat < 4),
    ((s.regs.get ⟨r.toNat, hr⟩).toInt ≠ 0 → exec (.div (some (.reg d)) (some (.reg r))) s =
      .next (wroteRegister (.alu .div) (.reg d) (.reg r) ⟨d.toNat, hd⟩
        (clamp s.params.overflow
          (Int.tdiv (s.regs.get ⟨d.toNat, hd⟩).toInt (s.regs.get ⟨r.toNat, hr⟩).toInt)) s)) ∧
    ((s.regs.get ⟨r.toNat, hr⟩).toInt = 0 → exec (.div (some (.reg d)) (some (.reg r))) s =
      .next (failedWith .divisionByZero s))

/-- What ADD, SUB, MUL and DIV leave alone, in every form and outcome (41_alu_arithmetic.md R123): memory, status, program,
parameters, and every register but the destination. -/
def Obligations.ArithmeticChangesOnlyItsDestination : Prop :=
  ∀ (op : AluOp) (dst src : Option Operand) (s t : State), exec (aluInstr op dst src) s = .next t →
    (∀ j : Fin 4, (∀ d : Word, dst = some (.reg d) → d.toNat ≠ j.val) → t.regs.get j = s.regs.get j) ∧
    (firstError (aluInstr op dst src) s ≠ none → t.regs = s.regs) ∧
    t.mem = s.mem ∧ t.status = s.status ∧ t.prog = s.prog ∧ t.params = s.params

/-- One register as source and destination (41_alu_arithmetic.md R129), under either overflow policy. -/
def Obligations.SameRegisterArithmetic : Prop :=
  ∀ (s : State) (d : Word) (hd : d.toNat < 4),
    let i : Fin 4 := ⟨d.toNat, hd⟩
    let o : Operand := .reg d
    let r : Int := (s.regs.get i).toInt
    (exec (.add (some o) (some o)) s = .next (wroteRegister (.alu .add) o o i (clamp s.params.overflow (2 * r)) s)) ∧
    (exec (.sub (some o) (some o)) s = .next (wroteRegister (.alu .sub) o o i 0 s)) ∧
    (exec (.mul (some o) (some o)) s = .next (wroteRegister (.alu .mul) o o i (clamp s.params.overflow (r * r)) s)) ∧
    (r ≠ 0 → exec (.div (some o) (some o)) s = .next (wroteRegister (.alu .div) o o i 1 s)) ∧
    (r = 0 → exec (.div (some o) (some o)) s = .next (failedWith .divisionByZero s))

/-- The overflow rule (41_alu_arithmetic.md R121), for words of any width: the operations clamp the exact result of the
signed operands; a result in range is exact under both policies; `wrap`, the default, gives the one integer in range that is
congruent modulo 2^w; `saturate` gives the nearer end of the range. -/
def Obligations.ClampFollowsTheOverflowPolicy : Prop :=
  (∀ (w : Nat) (p : OverflowPolicy) (a b : BitVec w),
    alu p .add a b = .ok (clamp p (a.toInt + b.toInt)) ∧ alu p .sub a b = .ok (clamp p (a.toInt - b.toInt)) ∧
      alu p .mul a b = .ok (clamp p (a.toInt * b.toInt)) ∧
      (b.toInt ≠ 0 → alu p .div a b = .ok (clamp p (truncDiv a.toInt b.toInt)))) ∧
  State.reset.params.overflow = .wrap ∧
  ∀ (w : Nat) (i : Int), 2 ≤ w →
    (∀ p : OverflowPolicy, intMin w ≤ i → i ≤ intMax w → (clamp p i : BitVec w).toInt = i) ∧
    (∀ j : Int, (intMin w ≤ j ∧ j ≤ intMax w ∧ ((2 ^ w : Nat) : Int) ∣ i - j) ↔
      j = (clamp .wrap i : BitVec w).toInt) ∧
    (clamp .saturate i : BitVec w).toInt = min (max i (intMin w)) (intMax w)

/-- Division rounds toward zero (41_alu_arithmetic.md R122), for words of any width: the rule's formula, its examples, and
the one quotient that leaves the range with its result under each policy. -/
def Obligations.DivisionRoundsTowardZero : Prop :=
  (∀ a b : Int, b ≠ 0 →
    ((a = 0 ∨ (0 < a ∧ 0 < b) ∨ (a < 0 ∧ b < 0)) → truncDiv a b = |a| / |b|) ∧
    (¬(a = 0 ∨ (0 < a ∧ 0 < b) ∨ (a < 0 ∧ b < 0)) → truncDiv a b = -(|a| / |b|)) ∧
    truncDiv a b = Int.tdiv a b ∧ truncDiv 0 b = 0) ∧
  (truncDiv 7 2 = 3 ∧ truncDiv (-7) 2 = -3 ∧ truncDiv 7 (-2) = -3 ∧ truncDiv (-7) (-2) = 3 ∧
    truncDiv 1 2 = 0 ∧ truncDiv (-1) 2 = 0) ∧
  (∀ (w : Nat) (a b : BitVec w), 2 ≤ w → b.toInt ≠ 0 →
    (¬(intMin w ≤ truncDiv a.toInt b.toInt ∧ truncDiv a.toInt b.toInt ≤ intMax w) ↔
      a.toInt = intMin w ∧ b.toInt = -1)) ∧
  ∀ w : Nat, 2 ≤ w → truncDiv (intMin w) (-1) = ((2 ^ (w - 1) : Nat) : Int) ∧
    (clamp .wrap (truncDiv (intMin w) (-1)) : BitVec w).toInt = intMin w ∧
    (clamp .saturate (truncDiv (intMin w) (-1)) : BitVec w).toInt = intMax w

/-! ### Errors -/

/-- The one error that a failing instruction reports is the first that applies in R168's order, and an instruction to which
none applies reports none (60_exceptions.md R168). -/
def Obligations.TheFirstErrorInOrderIsReported : Prop :=
  ∀ (i : Instr) (s : State),
    (∀ e : Error, firstError i s = some e → exec i s = .next (failedWith e s)) ∧
    (firstError i s = none → ∃ t, exec i s = .next t ∧ ∀ (k : Nat) (e : Error), t.trace ≠ s.trace ++ [.err k e])

/-- Taking an error (60_exceptions.md R169): a step that reports an error names its line, writes no register and no cell,
changes no status and goes on at the next line. -/
def Obligations.TakingAnErrorWritesNothing : Prop :=
  ∀ (s t : State) (k : Nat) (e : Error), step s = .next t → t.trace = s.trace ++ [.err k e] →
    k = s.pc ∧ t.regs = s.regs ∧ t.mem = s.mem ∧ t.pc = s.pc + 1 ∧ t.status = .running ∧ t.prog = s.prog ∧
      t.params = s.params

/-- Who raises which error, with which information (60_exceptions.md R160, R162 to R166). -/
def Obligations.ErrorsAreRaisedByTheInstructionsOfTheTable : Prop :=
  ∀ (i : Instr) (s t : State) (k : Nat) (e : Error), exec i s = .next t → t.trace = s.trace ++ [.err k e] →
    match e with
    | .invalidRegister _ => ∃ m dst src, i = instructionOf m (some dst) (some src)
    | .addressOutOfRange a => (∃ dst src, i = .mov dst src) ∧ (a < 0 ∨ (s.params.memSize : Int) ≤ a)
    | .divisionByZero => ∃ d r : Word, i = .div (some (.reg d)) (some (.reg r)) ∧ d.toNat < 4 ∧
        ∃ hr : r.toNat < 4, s.regs.get ⟨r.toNat, hr⟩ = 0
    | .missingInstruction => i = .missing
    | .missingOperand n => ∃ m dst src, i = instructionOf m dst src ∧ (dst = none ∨ src = none) ∧
        n = presentCount dst src ∧ n ≤ 1
    | .unknownInstruction op => i = .reserved op

/-! ### The run -/

/-- Every step of a run keeps its invariant (10_state.md R20, R25, R29; 20_memory.md R51; 42_control_and_sequencing.md R147). -/
def Obligations.StepKeepsTheInvariant : Prop :=
  ∀ s t : State, RunInv s → step s = .next t → RunInv t

/-- The state after reset satisfies the invariant of a run. -/
def Obligations.ResetSatisfiesTheInvariant : Prop := RunInv State.reset

/-- Every launched run starts in the invariant (70_reset_and_hazards.md R190). The invariant's `admitted` part, the parameters of
00_scope.md R7, holds by the model's choice: the launch refuses all others (log 17), and admits a `PC_MAX` of 1 or more
(log 6). -/
def Obligations.LaunchSatisfiesTheInvariant : Prop :=
  ∀ (p : Params) (file : Option Text) (s : State), launch p file = .started s → RunInv s

/-- The initial values (10_state.md R34), of every launched run and of the state after reset: all registers and memory
words 0, `pc` 1, Running, an empty trace. -/
def Obligations.InitialValues : Prop :=
  ∀ s : State, (s = State.reset ∨ ∃ p file, launch p file = .started s) →
    (∀ i : Fin 4, s.regs.get i = 0) ∧ (∀ a : Nat, Memory.read s.mem a = 0) ∧ s.pc = 1 ∧ s.status = .running ∧ s.trace = []

/-- Every run ends (42_control_and_sequencing.md R147): from any state of a run, after at most `L + 2 - pc` steps, so after
at most `L + 1` from its start, with the final event of its last line. -/
def Obligations.EveryRunEnds : Prop :=
  ∀ s : State, RunInv s → s.status = .running →
    let e := runSteps (s.prog.length + 2 - s.pc) s
    (e.status = .halted ∧ e.pc ≤ s.prog.length ∧ e.trace.getLast? = some (.halted e.pc)) ∨
      (e.status = .exhausted ∧ e.pc = s.prog.length + 1 ∧ e.trace.getLast? = some (.exhausted (s.prog.length + 1)))

/-! ### Memory -/

/-- Memories in canonical form that read alike at every index are the same data (20_memory.md R51, R53; log 11). -/
def Obligations.MemoryIsDeterminedByItsReads : Prop :=
  ∀ m m' : Memory, Memory.wf m = true → Memory.wf m' = true → (∀ a, Memory.read m a = Memory.read m' a) → m = m'

/-! ### Ports -/

/-- MOV over the ports of register_file and memory_array does what its rule says, whatever the don't-care outputs hold
(10_state.md R24; 20_memory.md R64; 40_data_movement.md R112). The wiring of operands to ports is DEDUCED (log 16). -/
def Obligations.MoveByPortsIsMove : Prop :=
  ∀ (dst src : Option Operand) (s : State), moveByPorts dst src s = moveWord dst src s

/-- ADD, SUB, MUL and DIV over the ports of register_file and simple_alu do what their rule says
(10_state.md R24; 41_alu_arithmetic.md R120, R123). The wiring of operands to ports is DEDUCED (log 16). -/
def Obligations.ArithmeticByPortsIsArithmetic : Prop :=
  ∀ (op : AluOp) (dst src : Option Operand) (s : State),
    registerRegisterByPorts op dst src s = registerRegister op dst src s

/-! ### The front end -/

/-- One word a line, and each word decodes to its line's instruction (30_encoding.md R85, R96). -/
def Obligations.EachLineBecomesTheWordOfItsInstruction : Prop :=
  ∀ (p : Params) (t : Text) (s : State), launch p (some t) = .started s →
    s.prog.length = (splitLines t).length ∧
      ∀ (k : Nat) (l : Text), (splitLines t)[k]? = some l →
        ∃ i w, lineInstr p l = .ok i ∧ s.prog[k]? = some w ∧ decode w = i

/-- Cutting a file into lines (30_encoding.md R70): no line holds a line feed, and the lines with a line feed after each are
the file, but for one after the last line where the file has none. -/
def Obligations.CuttingIntoLinesLosesNothing : Prop :=
  ∀ t : Text, (∀ l ∈ splitLines t, lineFeed ∉ l) ∧
    (t = [] ∨ t.getLast? = some lineFeed → (splitLines t).flatMap (fun l => l ++ [lineFeed]) = t) ∧
    (t ≠ [] → t.getLast? ≠ some lineFeed → (splitLines t).flatMap (fun l => l ++ [lineFeed]) = t ++ [lineFeed])

/-- The lines without operands (30_encoding.md R71 to R73, R76): empty is NOP, anything that begins with `HLT` after leading
whitespace is HLT, any other line of only whitespace is MISSING; no parameter matters. -/
def Obligations.LinesWithoutOperands : Prop :=
  ∀ (p : Params) (pre rest : Text), pre.all isSpace = true →
    lineInstr p [] = .ok .nop ∧ lineInstr p (pre ++ hltText ++ rest) = .ok .hlt ∧
      (pre ≠ [] → lineInstr p pre = .ok .missing)

/-- A mnemonic that is none of the five gives `UnknownInstruction`, and its operands are never parsed
(30_encoding.md R77, R83, R90). -/
def Obligations.UnknownMnemonicsAreReserved : Prop :=
  ∀ (p : Params) (l : Text), mnemonicText l ≠ [] → hltText.isPrefixOf (trimLeading l) = false →
    mnemonicOf (mnemonicText l) = none → lineInstr p l = .ok (.reserved 0xF)

/-- The general lines of the five mnemonics: leading whitespace, the mnemonic, whitespace, and the tokens before and after the
first comma, whose leading whitespace is dropped; with no comma there is one token. A token with nothing left is an absent
operand, every other one is classified (30_encoding.md R75, R77, R78, R96). -/
def Obligations.GeneralLinesAreCutIntoMnemonicAndTokens : Prop :=
  ∀ (p : Params) (m : Mnemonic) (name pre gap t1 gap2 t2 : Text), mnemonicOf name = some m →
    pre.all isSpace = true → gap.all isSpace = true → gap2.all isSpace = true → comma ∉ t1 →
    t1.head?.any isSpace = false → t2.head?.any isSpace = false →
    let operand (t : Text) : Except LineRefusal (Option Operand) :=
      if t = [] then .ok none else (classifyToken p t).map some
    (gap ≠ [] → lineInstr p (pre ++ name ++ gap ++ t1 ++ [comma] ++ gap2 ++ t2) =
      (do
        let d ← operand t1
        let v ← operand t2
        return instructionOf m d v)) ∧
    (gap ≠ [] ∨ t1 = [] → lineInstr p (pre ++ name ++ gap ++ t1) =
      (do
        let d ← operand t1
        return instructionOf m d none))

/-- A register's name is that register, and no other token is that register (30_encoding.md R80), for every pair of open
names that R7 admits. -/
def Obligations.RegisterNamesAreRegisters : Prop :=
  ∀ (p : Params) (t : Text) (i : Fin 4), paramsAdmitted p = true →
    (registerOf p t = some i ↔ t = registerName p i) ∧
      (classifyToken p t = .ok (.reg (BitVec.ofNat 32 i.val)) ↔ t = registerName p i)

/-- An immediate token (30_encoding.md R82): under `permissive` the value of its leading numeral, or 0 where there is none;
under `strict` the whole token is a numeral, or the program is refused; a numeral out of range is refused in both. -/
def Obligations.ImmediateTokensFollowTheParseMode : Prop :=
  ∀ (p : Params) (t : Text), registerOf p t = none → t ≠ [] → t.head? ≠ some leftBracket →
    (leadingNumeral t = none →
      (p.immParse = .permissive → classifyToken p t = .ok (.imm 0)) ∧
      (p.immParse = .strict → classifyToken p t = .error .malformedImmediate)) ∧
    ∀ (v : Int) (rest : Text), leadingNumeral t = some (v, rest) →
      (p.immParse = .permissive ∨ rest = [] →
        (intMin 32 ≤ v ∧ v ≤ intMax 32 → ∃ x : Word, x.toInt = v ∧ classifyToken p t = .ok (.imm x)) ∧
        (¬(intMin 32 ≤ v ∧ v ≤ intMax 32) → classifyToken p t = .error .numeralOutOfRange)) ∧
      (p.immParse = .strict → rest ≠ [] → classifyToken p t = .error .malformedImmediate)

/-- A memory token (30_encoding.md R80, R81): the address is the numeral right after `[`, whatever follows it; with no numeral
there, or one out of range, the program is refused. No name that R7 admits begins with `[`. -/
def Obligations.MemoryTokensReadTheAddressAfterTheBracket : Prop :=
  ∀ (p : Params) (t : Text), paramsAdmitted p = true →
    (leadingNumeral t = none → classifyToken p (leftBracket :: t) = .error .malformedAddress) ∧
    ∀ (v : Int) (rest : Text), leadingNumeral t = some (v, rest) →
      (intMin 32 ≤ v ∧ v ≤ intMax 32 →
        ∃ x : Word, x.toInt = v ∧ classifyToken p (leftBracket :: t) = .ok (.mem x)) ∧
      (¬(intMin 32 ≤ v ∧ v ≤ intMax 32) → classifyToken p (leftBracket :: t) = .error .numeralOutOfRange)

/-- The longest leading numeral (30_encoding.md R81, R82): an optional sign and one or more digits, up to the first
character that is no digit, in base ten; and there is none exactly where a text does not begin with an optional sign and a
digit. -/
def Obligations.NumeralsAreReadToTheirEnd : Prop :=
  (∀ (ds rest : Text), ds ≠ [] → ds.all isDigit = true → rest.head?.any isDigit = false →
    leadingNumeral (ds ++ rest) = some ((decimalValue ds : Int), rest) ∧
      leadingNumeral (0x2B :: (ds ++ rest)) = some ((decimalValue ds : Int), rest) ∧
      leadingNumeral (0x2D :: (ds ++ rest)) = some (-(decimalValue ds : Int), rest)) ∧
    (∀ t : Text, leadingNumeral t = none ↔
      ¬∃ (sign : Text) (d : Byte) (rest : Text), (sign = [] ∨ sign = [0x2B] ∨ sign = [0x2D]) ∧ isDigit d = true ∧
        t = sign ++ d :: rest) ∧
    decimalValue [] = 0 ∧
    ∀ (ds : Text) (b : Byte), isDigit b = true → decimalValue (ds ++ [b]) = 10 * decimalValue ds + (b.toNat - 0x30)

/-- The front end emits register indices 0 to 3 only, and never a raw kind or opcode outside the table of R96
(30_encoding.md R93, R96). -/
def Obligations.TextNamesOnlyFourRegisters : Prop :=
  ∀ (p : Params) (l : Text) (i : Instr), lineInstr p l = .ok i →
    i.wf = true ∧ (∀ op, i = .reserved op → op = 0xF) ∧
      ∀ (m : Mnemonic) (dst src : Option Operand) (f : Word), i = instructionOf m dst src →
        (dst = some (.reg f) ∨ src = some (.reg f)) → f.toNat < 4

/-- A program with a refused line, or with more than `PC_MAX - 1` lines, has no run (30_encoding.md R83;
42_control_and_sequencing.md R149). Which reason a launch names first is the model's choice (log 17). -/
def Obligations.RefusedProgramsHaveNoRun : Prop :=
  ∀ (p : Params) (t : Text), paramsAdmitted p = true →
    ((∃ l ∈ splitLines t, ∃ r, lineInstr p l = .error r) ∨ p.pcMax ≤ (splitLines t).length) →
      ∃ r, launch p (some t) = .refused r

/-- Every other program starts a run (30_encoding.md R83; 70_reset_and_hazards.md R190). -/
def Obligations.AdmittedProgramsStart : Prop :=
  ∀ (p : Params) (t : Text), paramsAdmitted p = true → (splitLines t).length + 1 ≤ p.pcMax →
    (∀ l ∈ splitLines t, ∃ i, lineInstr p l = .ok i) →
      ∃ s, launch p (some t) = .started s ∧ s.params = p ∧ s.pc = 1

/-- A program file that cannot be opened is `FileOpenFailure`, with no run (70_reset_and_hazards.md R191). -/
def Obligations.UnopenedFileIsALaunchFailure : Prop :=
  ∀ p : Params, paramsAdmitted p = true → launch p none = .fileOpenFailure

/-- The characters and the names that the text rules write out: line feed, comma, `[` and `HLT`, the whitespace characters,
the decimal digits, the five mnemonics, `ax` and `ab` (30_encoding.md R70, R73, R74, R77, R78, R80, R81; 00_scope.md R7). -/
def Obligations.TextRulesUseTheNamedCharacters : Prop :=
  lineFeed = 0x0A ∧ comma.toNat = ','.toNat ∧ leftBracket.toNat = '['.toNat ∧
    hltText.map BitVec.toNat = "HLT".toList.map Char.toNat ∧
    (∀ b : Byte, isSpace b = true ↔ b.toNat ∈ [0x20, 0x09, 0x0A, 0x0B, 0x0C, 0x0D]) ∧
    (∀ b : Byte, isDigit b = true ↔ b.toNat ∈ "0123456789".toList.map Char.toNat) ∧
    (∀ (t : Text) (m : Mnemonic), mnemonicOf t = some m ↔
      (t.map BitVec.toNat, m) ∈
        [ ("MOV".toList.map Char.toNat, .mov), ("ADD".toList.map Char.toNat, .alu .add),
          ("SUB".toList.map Char.toNat, .alu .sub), ("MUL".toList.map Char.toNat, .alu .mul),
          ("DIV".toList.map Char.toNat, .alu .div) ]) ∧
    ∀ p : Params, (registerName p 0).map BitVec.toNat = "ax".toList.map Char.toNat ∧
      (registerName p 1).map BitVec.toNat = "ab".toList.map Char.toNat ∧
      registerName p 2 = p.regName2 ∧ registerName p 3 = p.regName3
end

