-- ==== Sys2Proof/Laws/Decode.lean ====
section
/-! SUPPORT. The fields of a packed word (spec/30_encoding.md R86), and the operands they give back. -/

namespace Sys2Proof

/-- Concatenation in numbers. -/
theorem append_toNat {m n : Nat} (x : BitVec m) (y : BitVec n) :
    (x ++ y).toNat = x.toNat * 2 ^ n + y.toNat := by
  rw [BitVec.toNat_append, Nat.shiftLeft_eq, Nat.mul_comm, ← Nat.two_pow_add_eq_or_of_lt y.isLt]

/-- A packed word in numbers. -/
theorem packWord_toNat (op : BitVec 4) (dk sk : BitVec 2) (dv sv : Word) :
    (packWord op dk sk dv sv).toNat =
      (((sv.toNat * 2 ^ 32 + dv.toNat) * 2 ^ 2 + sk.toNat) * 2 ^ 2 + dk.toNat) * 2 ^ 4 + op.toNat := by
  refine (append_toNat (sv ++ dv ++ sk ++ dk) op).trans ?_
  rw [append_toNat (sv ++ dv ++ sk) dk, append_toNat (sv ++ dv) sk, append_toNat sv dv]

theorem opField_packWord (op : BitVec 4) (dk sk : BitVec 2) (dv sv : Word) :
    opField (packWord op dk sk dv sv) = op := by
  apply BitVec.eq_of_toNat_eq
  rw [opField, BitVec.extractLsb'_toNat, packWord_toNat, Nat.shiftRight_eq_div_pow]
  omega

theorem dkField_packWord (op : BitVec 4) (dk sk : BitVec 2) (dv sv : Word) :
    dkField (packWord op dk sk dv sv) = dk := by
  apply BitVec.eq_of_toNat_eq
  rw [dkField, BitVec.extractLsb'_toNat, packWord_toNat, Nat.shiftRight_eq_div_pow]
  omega

theorem skField_packWord (op : BitVec 4) (dk sk : BitVec 2) (dv sv : Word) :
    skField (packWord op dk sk dv sv) = sk := by
  apply BitVec.eq_of_toNat_eq
  rw [skField, BitVec.extractLsb'_toNat, packWord_toNat, Nat.shiftRight_eq_div_pow]
  omega

theorem dvField_packWord (op : BitVec 4) (dk sk : BitVec 2) (dv sv : Word) :
    dvField (packWord op dk sk dv sv) = dv := by
  apply BitVec.eq_of_toNat_eq
  rw [dvField, BitVec.extractLsb'_toNat, packWord_toNat, Nat.shiftRight_eq_div_pow]
  omega

theorem svField_packWord (op : BitVec 4) (dk sk : BitVec 2) (dv sv : Word) :
    svField (packWord op dk sk dv sv) = sv := by
  apply BitVec.eq_of_toNat_eq
  rw [svField, BitVec.extractLsb'_toNat, packWord_toNat, Nat.shiftRight_eq_div_pow]
  omega

/-- An operand's kind code and value field give it back (R87, R88). -/
theorem operandOf_kindCode (o : Option Operand) : operandOf (kindCode o) (valueField o) = o := by
  rcases o with _ | (f | v | f)
  · rfl
  · rfl
  · rfl
  · rfl

/-- The destination of an operand word. -/
theorem dstOperand_operandWord (op : BitVec 4) (dst src : Option Operand) :
    dstOperand (operandWord op dst src) = dst := by
  rw [dstOperand, operandWord, dkField_packWord, dvField_packWord, operandOf_kindCode]

/-- The source of an operand word. -/
theorem srcOperand_operandWord (op : BitVec 4) (dst src : Option Operand) :
    srcOperand (operandWord op dst src) = src := by
  rw [srcOperand, operandWord, skField_packWord, svField_packWord, operandOf_kindCode]

end Sys2Proof
end

