-- ==== Sys2Proof/Laws/State.lean ====
section
/-! SUPPORT. One lemma per field per update of the state, so that no proof unfolds a record update. -/

namespace Sys2Proof.Machine

@[simp] theorem report_regs (ev : Event) (s : State) : (report ev s).regs = s.regs := rfl
@[simp] theorem report_mem (ev : Event) (s : State) : (report ev s).mem = s.mem := rfl
@[simp] theorem report_pc (ev : Event) (s : State) : (report ev s).pc = s.pc := rfl
@[simp] theorem report_status (ev : Event) (s : State) : (report ev s).status = s.status := rfl
@[simp] theorem report_trace (ev : Event) (s : State) : (report ev s).trace = s.trace ++ [ev] := rfl
@[simp] theorem report_prog (ev : Event) (s : State) : (report ev s).prog = s.prog := rfl
@[simp] theorem report_params (ev : Event) (s : State) : (report ev s).params = s.params := rfl

@[simp] theorem advance_regs (s : State) : (advance s).regs = s.regs := rfl
@[simp] theorem advance_mem (s : State) : (advance s).mem = s.mem := rfl
@[simp] theorem advance_pc (s : State) : (advance s).pc = s.pc + 1 := rfl
@[simp] theorem advance_status (s : State) : (advance s).status = s.status := rfl
@[simp] theorem advance_trace (s : State) : (advance s).trace = s.trace := rfl
@[simp] theorem advance_prog (s : State) : (advance s).prog = s.prog := rfl
@[simp] theorem advance_params (s : State) : (advance s).params = s.params := rfl

@[simp] theorem reportOk_regs (m : Mnemonic) (d v : Operand) (s : State) : (reportOk m d v s).regs = s.regs := rfl
@[simp] theorem reportOk_mem (m : Mnemonic) (d v : Operand) (s : State) : (reportOk m d v s).mem = s.mem := rfl
@[simp] theorem reportOk_pc (m : Mnemonic) (d v : Operand) (s : State) : (reportOk m d v s).pc = s.pc := rfl
@[simp] theorem reportOk_status (m : Mnemonic) (d v : Operand) (s : State) : (reportOk m d v s).status = s.status := rfl
@[simp] theorem reportOk_trace (m : Mnemonic) (d v : Operand) (s : State) : (reportOk m d v s).trace = s.trace ++ [.ok s.pc m d v s.regs] := rfl
@[simp] theorem reportOk_prog (m : Mnemonic) (d v : Operand) (s : State) : (reportOk m d v s).prog = s.prog := rfl
@[simp] theorem reportOk_params (m : Mnemonic) (d v : Operand) (s : State) : (reportOk m d v s).params = s.params := rfl

@[simp] theorem takeError_regs (e : Error) (s : State) : (takeError e s).regs = s.regs := rfl
@[simp] theorem takeError_mem (e : Error) (s : State) : (takeError e s).mem = s.mem := rfl
@[simp] theorem takeError_pc (e : Error) (s : State) : (takeError e s).pc = s.pc + 1 := rfl
@[simp] theorem takeError_status (e : Error) (s : State) : (takeError e s).status = s.status := rfl
@[simp] theorem takeError_trace (e : Error) (s : State) : (takeError e s).trace = s.trace ++ [.err s.pc e] := rfl
@[simp] theorem takeError_prog (e : Error) (s : State) : (takeError e s).prog = s.prog := rfl
@[simp] theorem takeError_params (e : Error) (s : State) : (takeError e s).params = s.params := rfl

@[simp] theorem commit_reg_regs (i : Fin 4) (x : Word) (s : State) : (commit (.reg i) x s).regs = s.regs.set i x := rfl
@[simp] theorem commit_reg_mem (i : Fin 4) (x : Word) (s : State) : (commit (.reg i) x s).mem = s.mem := rfl
@[simp] theorem commit_reg_pc (i : Fin 4) (x : Word) (s : State) : (commit (.reg i) x s).pc = s.pc := rfl
@[simp] theorem commit_reg_status (i : Fin 4) (x : Word) (s : State) : (commit (.reg i) x s).status = s.status := rfl
@[simp] theorem commit_reg_trace (i : Fin 4) (x : Word) (s : State) : (commit (.reg i) x s).trace = s.trace := rfl
@[simp] theorem commit_reg_prog (i : Fin 4) (x : Word) (s : State) : (commit (.reg i) x s).prog = s.prog := rfl
@[simp] theorem commit_reg_params (i : Fin 4) (x : Word) (s : State) : (commit (.reg i) x s).params = s.params := rfl

@[simp] theorem commit_mem_regs (a : Nat) (x : Word) (s : State) : (commit (.mem a) x s).regs = s.regs := rfl
@[simp] theorem commit_mem_mem (a : Nat) (x : Word) (s : State) : (commit (.mem a) x s).mem = Memory.write s.mem a x := rfl
@[simp] theorem commit_mem_pc (a : Nat) (x : Word) (s : State) : (commit (.mem a) x s).pc = s.pc := rfl
@[simp] theorem commit_mem_status (a : Nat) (x : Word) (s : State) : (commit (.mem a) x s).status = s.status := rfl
@[simp] theorem commit_mem_trace (a : Nat) (x : Word) (s : State) : (commit (.mem a) x s).trace = s.trace := rfl
@[simp] theorem commit_mem_prog (a : Nat) (x : Word) (s : State) : (commit (.mem a) x s).prog = s.prog := rfl
@[simp] theorem commit_mem_params (a : Nat) (x : Word) (s : State) : (commit (.mem a) x s).params = s.params := rfl

@[simp] theorem exhaust_regs (s : State) : (exhaust s).regs = s.regs := rfl
@[simp] theorem exhaust_mem (s : State) : (exhaust s).mem = s.mem := rfl
@[simp] theorem exhaust_pc (s : State) : (exhaust s).pc = s.pc := rfl
@[simp] theorem exhaust_status (s : State) : (exhaust s).status = .exhausted := rfl
@[simp] theorem exhaust_trace (s : State) : (exhaust s).trace = s.trace ++ [.exhausted s.pc] := rfl
@[simp] theorem exhaust_prog (s : State) : (exhaust s).prog = s.prog := rfl
@[simp] theorem exhaust_params (s : State) : (exhaust s).params = s.params := rfl

@[simp] theorem placeWord_regs (w : InstrWord) (s : State) : (placeWord w s).regs = s.regs := rfl
@[simp] theorem placeWord_mem (w : InstrWord) (s : State) : (placeWord w s).mem = s.mem := rfl
@[simp] theorem placeWord_pc (w : InstrWord) (s : State) : (placeWord w s).pc = max s.pc 1 := rfl
@[simp] theorem placeWord_status (w : InstrWord) (s : State) : (placeWord w s).status = .running := rfl
@[simp] theorem placeWord_trace (w : InstrWord) (s : State) : (placeWord w s).trace = s.trace := rfl
@[simp] theorem placeWord_prog (w : InstrWord) (s : State) : (placeWord w s).prog = setOrExtend 0 w (s.pc - 1) s.prog := rfl
@[simp] theorem placeWord_params (w : InstrWord) (s : State) : (placeWord w s).params = s.params := rfl

@[simp] theorem initial_regs (p : Params) (l : List InstrWord) : (State.initial p l).regs = { x0 := 0, x1 := 0, x2 := 0, x3 := 0 } := rfl
@[simp] theorem initial_mem (p : Params) (l : List InstrWord) : (State.initial p l).mem = [] := rfl
@[simp] theorem initial_pc (p : Params) (l : List InstrWord) : (State.initial p l).pc = 1 := rfl
@[simp] theorem initial_status (p : Params) (l : List InstrWord) : (State.initial p l).status = .running := rfl
@[simp] theorem initial_trace (p : Params) (l : List InstrWord) : (State.initial p l).trace = [] := rfl
@[simp] theorem initial_prog (p : Params) (l : List InstrWord) : (State.initial p l).prog = l := rfl
@[simp] theorem initial_params (p : Params) (l : List InstrWord) : (State.initial p l).params = p := rfl

end Sys2Proof.Machine
end

