-- ==== Sys2Proof/Laws/FrontEnd.lean ====
section
/-! SUPPORT. What the front end and the launch can answer (spec/30_encoding.md R96; spec/70_reset_and_hazards.md R190). -/

namespace Sys2Proof.Machine

/-- A numeral's word, when it has one. -/
theorem numeralWord_ok {v : Int} {x : Word} (h : numeralWord v = .ok x) :
    intMin 32 ≤ v ∧ v ≤ intMax 32 ∧ x = BitVec.ofInt 32 v := by
  rw [numeralWord] at h
  split at h
  · next hr => exact ⟨hr.1, hr.2, (Except.ok.inj h).symm⟩
  · exact absurd h (by simp)

/-- The words of a translated program, first line first. -/
theorem programWords_cons {p : Params} {k : Nat} {l : Text} {ls : List Text} {ws : List InstrWord} :
    programWords p k (l :: ls) = .ok ws ↔
      ∃ i rest, lineInstr p l = .ok i ∧ programWords p (k + 1) ls = .ok rest ∧ ws = encode i :: rest := by
  cases hl : lineInstr p l <;> cases hr : programWords p (k + 1) ls <;>
    simp [programWords, lineWord, hl, hr, Except.map, eq_comm]

/-- A launch that starts a run: admitted parameters, a file that opens and is short enough, no line refused. -/
theorem launch_started {p : Params} {file : Option Text} {s : State} (h : launch p file = .started s) :
    ∃ t ws, file = some t ∧ paramsAdmitted p = true ∧ (splitLines t).length + 1 ≤ p.pcMax ∧
      programWords p 1 (splitLines t) = .ok ws ∧ s = State.initial p ws := by
  unfold launch at h
  split at h
  · next hp =>
    split at h
    · exact absurd h (by simp)
    · next t =>
      split at h
      · next hl =>
        split at h
        · exact absurd h (by simp)
        · next ws hw => exact ⟨t, ws, rfl, hp, hl, hw, (LaunchOutcome.started.inj h).symm⟩
      · exact absurd h (by simp)
  · exact absurd h (by simp)

end Sys2Proof.Machine
end

