-- ==== Sys2Proof/Laws/Memory.lean ====
section
/-! SUPPORT. The laws of the memory array (spec/20_memory.md R52, R53, R59): the canonical form, read after write, the
bounds check. -/

namespace Sys2Proof.Machine

/-- Every listed index of a memory lies above `a`. -/
def Memory.above (a : Nat) (m : Memory) : Prop := ∀ c ∈ m, a < c.1

/-- The canonical form of a nonempty memory, by its first cell and the rest. -/
theorem Memory.wf_cons (a : Nat) (v : Word) (m : Memory) :
    Memory.wf ((a, v) :: m) = true ↔ v ≠ 0 ∧ Memory.above a m ∧ Memory.wf m = true := by
  induction m generalizing a v with
  | nil => simp [Memory.wf, Memory.above]
  | cons c m ih =>
    obtain ⟨b, u⟩ := c
    have h := ih b u
    simp only [Memory.wf, Bool.and_eq_true, decide_eq_true_eq] at h ⊢
    rw [h]
    constructor
    · rintro ⟨⟨hv, hab⟩, hu, hm, hw⟩
      refine ⟨hv, ?_, hu, hm, hw⟩
      intro c hc
      rcases List.mem_cons.mp hc with rfl | hc
      · exact hab
      · exact lt_trans hab (hm c hc)
    · rintro ⟨hv, ha, hu, hm, hw⟩
      exact ⟨⟨hv, ha _ List.mem_cons_self⟩, hu, hm, hw⟩

/-- An index below every listed one reads as 0. -/
theorem Memory.read_of_above {a : Nat} {m : Memory} (h : Memory.above a m) : Memory.read m a = 0 := by
  induction m with
  | nil => rfl
  | cons c m ih =>
    obtain ⟨b, u⟩ := c
    have hb : a < b := h _ List.mem_cons_self
    rw [Memory.read, if_neg (Nat.ne_of_lt hb)]
    exact ih fun c hc => h c (List.mem_cons_of_mem _ hc)

/-- What a write lists: cells that were listed, and the one it writes. -/
theorem Memory.mem_write {m : Memory} {a : Nat} {v : Word} {c : Nat × Word} (h : c ∈ Memory.write m a v) :
    c ∈ m ∨ c = (a, v) := by
  induction m with
  | nil =>
    rw [Memory.write] at h
    split at h
    · exact .inl h
    · exact .inr (List.mem_singleton.mp h)
  | cons d m ih =>
    obtain ⟨b, u⟩ := d
    rw [Memory.write] at h
    split at h
    · split at h
      · exact .inl h
      · exact (List.mem_cons.mp h).symm.imp id id
    · split at h
      · split at h
        · exact .inl (List.mem_cons_of_mem _ h)
        · exact (List.mem_cons.mp h).symm.imp (List.mem_cons_of_mem _) id
      · rcases List.mem_cons.mp h with rfl | h
        · exact .inl List.mem_cons_self
        · exact (ih h).imp (List.mem_cons_of_mem _) id

/-- A write keeps the canonical form. -/
theorem Memory.write_wf {m : Memory} (a : Nat) (v : Word) (h : Memory.wf m = true) :
    Memory.wf (Memory.write m a v) = true := by
  induction m with
  | nil =>
    rw [Memory.write]
    split
    · rfl
    · next hv => simpa [Memory.wf] using hv
  | cons c m ih =>
    obtain ⟨b, u⟩ := c
    obtain ⟨hu, hm, hw⟩ := (Memory.wf_cons b u m).mp h
    rw [Memory.write]
    split
    · next hab =>
      split
      · exact h
      · next hv =>
        refine (Memory.wf_cons a v _).mpr ⟨hv, ?_, h⟩
        intro c hc
        rcases List.mem_cons.mp hc with rfl | hc
        · exact hab
        · exact lt_trans hab (hm c hc)
    · split
      · next hab =>
        subst hab
        split
        · exact hw
        · next hv => exact (Memory.wf_cons a v m).mpr ⟨hv, hm, hw⟩
      · next hlt hne =>
        refine (Memory.wf_cons b u _).mpr ⟨hu, ?_, ih hw⟩
        intro c hc
        rcases Memory.mem_write hc with hc | rfl
        · exact hm c hc
        · exact lt_of_le_of_ne (Nat.not_lt.mp hlt) (Ne.symm hne)

/-- A write leaves every other index alone, in any memory. -/
theorem Memory.read_write_of_ne (m : Memory) {a b : Nat} (v : Word) (h : b ≠ a) :
    Memory.read (Memory.write m a v) b = Memory.read m b := by
  induction m with
  | nil =>
    rw [Memory.write]
    split
    · rfl
    · simp [Memory.read, h]
  | cons c m ih =>
    obtain ⟨k, u⟩ := c
    rw [Memory.write]
    split
    · split
      · rfl
      · simp [Memory.read, h]
    · split
      · next hk =>
        subst hk
        split <;> simp [Memory.read, h]
      · simp only [Memory.read, ih]

/-- In canonical form, a read after a write to the same index gives the written word. -/
theorem Memory.read_write_self {m : Memory} (a : Nat) (v : Word) (h : Memory.wf m = true) :
    Memory.read (Memory.write m a v) a = v := by
  induction m with
  | nil =>
    rw [Memory.write]
    split
    · next hv => simp [Memory.read, hv]
    · simp [Memory.read]
  | cons c m ih =>
    obtain ⟨b, u⟩ := c
    obtain ⟨-, hm, hw⟩ := (Memory.wf_cons b u m).mp h
    rw [Memory.write]
    split
    · next hab =>
      split
      · next hv =>
        rw [Memory.read, if_neg (Nat.ne_of_lt hab), hv]
        exact Memory.read_of_above fun c hc => lt_trans hab (hm c hc)
      · simp [Memory.read]
    · split
      · next hab =>
        subst hab
        split
        · next hv =>
          rw [hv]
          exact Memory.read_of_above hm
        · simp [Memory.read]
      · next hne => rw [Memory.read, if_neg hne, ih hw]

/-- A write to an index below `n` lists no index outside `[0, n)`. -/
theorem Memory.write_bounded {m : Memory} {a n : Nat} (v : Word) (ha : a < n) (h : ∀ c ∈ m, c.1 < n) :
    ∀ c ∈ Memory.write m a v, c.1 < n := by
  intro c hc
  rcases Memory.mem_write hc with hc | rfl
  · exact h c hc
  · exact ha

/-- The memory after reset is in canonical form. -/
theorem Memory.reset_wf : Memory.wf State.reset.mem = true := rfl

/-- A bad address is one outside `[0, n)`. -/
theorem memBad_iff (n : Nat) (a : Int) : memBad n a = true ↔ a < 0 ∨ (n : Int) ≤ a := by
  simp [memBad]

/-- The bounds check of an address in range. -/
theorem memCheck_of_lt {n : Nat} {a : Int} (h0 : 0 ≤ a) (h1 : a < n) : memCheck n a = .ok a.toNat := by
  have h : ¬memBad n a = true := by
    rw [memBad_iff]
    omega
  rw [memCheck, if_neg h]

/-- The bounds check of an address out of range. -/
theorem memCheck_of_bad {n : Nat} {a : Int} (h : a < 0 ∨ (n : Int) ≤ a) :
    memCheck n a = .error (.addressOutOfRange a) := by
  rw [memCheck, if_pos ((memBad_iff n a).mpr h)]

/-- All that the bounds check can answer. -/
theorem memCheck_cases (n : Nat) (a : Int) :
    (0 ≤ a ∧ a < n ∧ memCheck n a = .ok a.toNat) ∨
      ((a < 0 ∨ (n : Int) ≤ a) ∧ memCheck n a = .error (.addressOutOfRange a)) := by
  by_cases h : a < 0 ∨ (n : Int) ≤ a
  · exact .inr ⟨h, memCheck_of_bad h⟩
  · have h0 : 0 ≤ a := by omega
    have h1 : a < n := by omega
    exact .inl ⟨h0, h1, memCheck_of_lt h0 h1⟩

end Sys2Proof.Machine
end

