-- ==== Sys2Proof/Laws/Regs.lean ====
section
/-! SUPPORT. The laws of the register file (spec/10_state.md R22, R23) and of the index check. -/

namespace Sys2Proof.Machine

/-- A read after a write: the written word at the written index, the old word elsewhere. -/
theorem RegFile.get_set (x : RegFile) (i j : Fin 4) (v : Word) :
    (x.set i v).get j = if j = i then v else x.get j := by
  fin_cases i <;> fin_cases j <;> rfl

/-- A write leaves every other register alone. -/
theorem RegFile.get_set_of_ne (x : RegFile) {i j : Fin 4} (v : Word) (h : j ≠ i) :
    (x.set i v).get j = x.get j := by
  rw [RegFile.get_set, if_neg h]

/-- Two register files that read alike are the same. -/
theorem RegFile.ext_get {x y : RegFile} (h : ∀ i, x.get i = y.get i) : x = y := by
  cases x
  cases y
  have h0 := h 0
  have h1 := h 1
  have h2 := h 2
  have h3 := h 3
  simp only [RegFile.get] at h0 h1 h2 h3
  rw [h0, h1, h2, h3]

/-- The index check of a field below 4. -/
theorem regCheck_of_lt {pos : Position} {f : Word} (h : f.toNat < 4) :
    regCheck pos f = .ok ⟨f.toNat, h⟩ := by
  rw [regCheck, dif_pos h]

/-- The index check of a field that names no register. -/
theorem regCheck_of_ge {pos : Position} {f : Word} (h : 4 ≤ f.toNat) :
    regCheck pos f = .error (.invalidRegister pos) := by
  rw [regCheck, dif_neg (Nat.not_lt.mpr h)]

/-- All that the index check can answer. -/
theorem regCheck_cases (pos : Position) (f : Word) :
    (∃ h : f.toNat < 4, regCheck pos f = .ok ⟨f.toNat, h⟩) ∨
      (4 ≤ f.toNat ∧ regCheck pos f = .error (.invalidRegister pos)) := by
  rcases Nat.lt_or_ge f.toNat 4 with h | h
  · exact .inl ⟨h, regCheck_of_lt h⟩
  · exact .inr ⟨h, regCheck_of_ge h⟩

end Sys2Proof.Machine
end

