-- ==== Sys2Proof/Laws/Ops.lean ====
section
/-! SUPPORT. For each shared operation, once, all that it can do: the lemmas to cite instead of unfolding it. -/

namespace Sys2Proof.Machine

/-- A chain of checks succeeds only if its first check does. -/
theorem except_bind_ok {ε α β : Type} {x : Except ε α} {f : α → Except ε β} {b : β} :
    (x >>= f) = .ok b ↔ ∃ a, x = .ok a ∧ f a = .ok b := by
  cases x <;> simp [bind, Except.bind]

/-- A chain of checks fails at its first check, or after it. -/
theorem except_bind_error {ε α β : Type} {x : Except ε α} {f : α → Except ε β} {e : ε} :
    (x >>= f) = .error e ↔ x = .error e ∨ ∃ a, x = .ok a ∧ f a = .error e := by
  cases x <;> simp [bind, Except.bind]

/-- The end of an instruction's step answers a next state, always: its own, advanced, or the error taken in the state
before it. -/
theorem settle_next {s t : State} {r : Except Error State} :
    settle s r = .next t ↔ (∃ u, r = .ok u ∧ t = advance u) ∨ (∃ e, r = .error e ∧ t = takeError e s) := by
  cases r <;> simp [settle, eq_comm]

/-- The end of an instruction's step never stops the machine. -/
theorem settle_is_next (s : State) (r : Except Error State) : ∃ t, settle s r = .next t := by
  cases r
  · exact ⟨_, rfl⟩
  · exact ⟨_, rfl⟩

/-- The arity check passes exactly when both operands are present. -/
theorem bothOperands_ok {dst src : Option Operand} {p : Operand × Operand} :
    bothOperands dst src = .ok p ↔ dst = some p.1 ∧ src = some p.2 := by
  obtain ⟨d, v⟩ := p
  cases dst <;> cases src <;> simp [bothOperands]

/-- The arity check fails exactly when an operand is absent, with the number of those present. -/
theorem bothOperands_error {dst src : Option Operand} {e : Error} :
    bothOperands dst src = .error e ↔ (dst = none ∨ src = none) ∧ e = .missingOperand (presentCount dst src) := by
  cases dst <;> cases src <;> simp [bothOperands, eq_comm]

/-- What a successful read of an operand gives, by its class. -/
theorem resolveRead_ok {s : State} {pos : Position} {o : Operand} {x : Word} (h : resolveRead s pos o = .ok x) :
    (∃ f, o = .reg f ∧ ∃ hf : f.toNat < 4, x = s.regs.get ⟨f.toNat, hf⟩) ∨ o = .imm x ∨
      (∃ f, o = .mem f ∧ 0 ≤ f.toInt ∧ f.toInt < s.params.memSize ∧ x = Memory.read s.mem f.toInt.toNat) := by
  cases o with
  | reg f =>
    rcases regCheck_cases pos f with ⟨hf, hr⟩ | ⟨-, hr⟩
    · refine .inl ⟨f, rfl, hf, ?_⟩
      simpa [resolveRead, hr, bind, Except.bind, pure, Except.pure, eq_comm] using h
    · simp [resolveRead, hr, bind, Except.bind] at h
  | imm v =>
    simp only [resolveRead, Except.ok.injEq] at h
    exact .inr (.inl (by rw [h]))
  | mem f =>
    rcases memCheck_cases s.params.memSize f.toInt with ⟨h0, h1, hr⟩ | ⟨-, hr⟩
    · refine .inr (.inr ⟨f, rfl, h0, h1, ?_⟩)
      simpa [resolveRead, hr, bind, Except.bind, pure, Except.pure, eq_comm] using h
    · simp [resolveRead, hr, bind, Except.bind] at h

/-- The two classes of a destination that can be written. -/
theorem placeOf_ok {o : Operand} {p : Place} (h : placeOf o = .ok p) :
    (∃ f, o = .reg f ∧ p = .reg f) ∨ (∃ f, o = .mem f ∧ p = .mem f) := by
  cases o <;> simp_all [placeOf]

/-- The one class of an operand of ADD, SUB, MUL and DIV. -/
theorem registerField_ok {pos : Position} {o : Operand} {f : Word} (h : registerField pos o = .ok f) : o = .reg f := by
  cases o <;> simp_all [registerField]

/-- The write target of a checked destination. -/
theorem resolveTarget_ok {s : State} {p : Place} {t : Target} (h : resolveTarget s p = .ok t) :
    (∃ f, p = .reg f ∧ ∃ hf : f.toNat < 4, t = .reg ⟨f.toNat, hf⟩) ∨
      (∃ f, p = .mem f ∧ 0 ≤ f.toInt ∧ f.toInt < s.params.memSize ∧ t = .mem f.toInt.toNat) := by
  cases p with
  | reg f =>
    rcases regCheck_cases .dst f with ⟨hf, hr⟩ | ⟨-, hr⟩
    · refine .inl ⟨f, rfl, hf, ?_⟩
      simpa [resolveTarget, hr, bind, Except.bind, pure, Except.pure, eq_comm] using h
    · simp [resolveTarget, hr, bind, Except.bind] at h
  | mem f =>
    rcases memCheck_cases s.params.memSize f.toInt with ⟨h0, h1, hr⟩ | ⟨-, hr⟩
    · refine .inr ⟨f, rfl, h0, h1, ?_⟩
      simpa [resolveTarget, hr, bind, Except.bind, pure, Except.pure, eq_comm] using h
    · simp [resolveTarget, hr, bind, Except.bind] at h

/-- All that a successful MOV does: it reads the source, and writes one register or one cell in range. -/
theorem moveWord_ok {dst src : Option Operand} {s t : State} (h : moveWord dst src s = .ok t) :
    ∃ d v x, dst = some d ∧ src = some v ∧ resolveRead s .src v = .ok x ∧
      ((∃ f, d = .reg f ∧ ∃ hf : f.toNat < 4,
          t = reportOk .mov d v (commit (.reg ⟨f.toNat, hf⟩) x s)) ∨
        (∃ f, d = .mem f ∧ 0 ≤ f.toInt ∧ f.toInt < s.params.memSize ∧
          t = reportOk .mov d v (commit (.mem f.toInt.toNat) x s))) := by
  obtain ⟨⟨d, v⟩, hb, h1⟩ := except_bind_ok.mp h
  obtain ⟨p, hp, h2⟩ := except_bind_ok.mp h1
  obtain ⟨x, hx, h3⟩ := except_bind_ok.mp h2
  obtain ⟨g, hg, h4⟩ := except_bind_ok.mp h3
  obtain ⟨rfl, rfl⟩ := bothOperands_ok.mp hb
  refine ⟨d, v, x, rfl, rfl, hx, ?_⟩
  have ht : t = reportOk .mov d v (commit g x s) := (Except.ok.inj h4).symm
  rcases placeOf_ok hp with ⟨f, rfl, rfl⟩ | ⟨f, rfl, rfl⟩
  · rcases resolveTarget_ok hg with ⟨f', hf', hlt, rfl⟩ | ⟨f', hf', -⟩
    · obtain rfl := Place.reg.inj hf'
      exact .inl ⟨f, rfl, hlt, ht⟩
    · exact Place.noConfusion hf'
  · rcases resolveTarget_ok hg with ⟨f', hf', -⟩ | ⟨f', hf', h0, h1, rfl⟩
    · exact Place.noConfusion hf'
    · obtain rfl := Place.mem.inj hf'
      exact .inr ⟨f, rfl, h0, h1, ht⟩

/-- What the ALU gives: no word exactly for DIV by zero, else the clamped exact result. -/
theorem alu_cases {w : Nat} (p : OverflowPolicy) (op : AluOp) (a b : BitVec w) :
    (op = .div ∧ b.toInt = 0 ∧ alu p op a b = .error .divisionByZero) ∨
      (¬(op = .div ∧ b.toInt = 0) ∧ alu p op a b = .ok (clamp p (exactResult op a.toInt b.toInt))) := by
  by_cases h : op = .div ∧ b.toInt = 0
  · exact .inl ⟨h.1, h.2, by simp [alu, aluDivZero, h.1, h.2]⟩
  · refine .inr ⟨h, ?_⟩
    rw [alu, if_neg]
    simpa [aluDivZero] using h

/-- All that a successful ADD, SUB, MUL or DIV does: it writes the clamped result of the two old words to register `d`. -/
theorem registerRegister_ok {op : AluOp} {dst src : Option Operand} {s t : State}
    (h : registerRegister op dst src s = .ok t) :
    ∃ df sf, dst = some (.reg df) ∧ src = some (.reg sf) ∧
      ∃ (hd : df.toNat < 4) (hs : sf.toNat < 4),
        ¬(op = .div ∧ (s.regs.get ⟨sf.toNat, hs⟩).toInt = 0) ∧
        t = reportOk (.alu op) (.reg df) (.reg sf) (commit (.reg ⟨df.toNat, hd⟩)
          (clamp s.params.overflow (exactResult op (s.regs.get ⟨df.toNat, hd⟩).toInt
            (s.regs.get ⟨sf.toNat, hs⟩).toInt)) s) := by
  obtain ⟨⟨d, v⟩, hb, h1⟩ := except_bind_ok.mp h
  obtain ⟨df, hdf, h2⟩ := except_bind_ok.mp h1
  obtain ⟨sf, hsf, h3⟩ := except_bind_ok.mp h2
  obtain ⟨i, hi, h4⟩ := except_bind_ok.mp h3
  obtain ⟨j, hj, h5⟩ := except_bind_ok.mp h4
  obtain ⟨y, hy, h6⟩ := except_bind_ok.mp h5
  obtain ⟨rfl, rfl⟩ := bothOperands_ok.mp hb
  obtain rfl := registerField_ok hdf
  obtain rfl := registerField_ok hsf
  rcases regCheck_cases .dst df with ⟨hd, hr⟩ | ⟨-, hr⟩
  · rcases regCheck_cases .src sf with ⟨hs, hq⟩ | ⟨-, hq⟩
    · obtain rfl := Except.ok.inj (hr.symm.trans hi)
      obtain rfl := Except.ok.inj (hq.symm.trans hj)
      rcases alu_cases s.params.overflow op (s.regs.get ⟨df.toNat, hd⟩) (s.regs.get ⟨sf.toNat, hs⟩) with
        ⟨-, -, ha⟩ | ⟨hz, ha⟩
      · exact absurd (ha.symm.trans hy) (by simp)
      · obtain rfl := Except.ok.inj (ha.symm.trans hy)
        exact ⟨df, sf, rfl, rfl, hd, hs, hz, (Except.ok.inj h6).symm⟩
    · exact absurd (hq.symm.trans hj) (by simp)
  · exact absurd (hr.symm.trans hi) (by simp)

/-- All that fetching can answer. -/
theorem fetch_cases (s : State) :
    (s.status ≠ .running ∧ fetch s = .error .runEnded) ∨
      (s.status = .running ∧ s.pc = 0 ∧ fetch s = .error .noLine) ∨
      (s.status = .running ∧ 1 ≤ s.pc ∧ fetch s = .ok s.prog[s.pc - 1]?) := by
  rcases hs : s.status with _ | _ | _
  · rcases Nat.eq_zero_or_pos s.pc with h | h
    · exact .inr (.inl ⟨rfl, h, by simp [fetch, hs, h]⟩)
    · exact .inr (.inr ⟨rfl, h, by simp [fetch, hs, Nat.ne_of_gt h]⟩)
  · exact .inl ⟨by simp, by simp [fetch, hs]⟩
  · exact .inl ⟨by simp, by simp [fetch, hs]⟩

/-- All that a step which answers a next state does: it ends the run past the last line, or runs the word at `pc`. -/
theorem step_next {s t : State} (h : step s = .next t) :
    s.status = .running ∧ 1 ≤ s.pc ∧
      ((s.prog[s.pc - 1]? = none ∧ t = exhaust s) ∨
        ∃ w, s.prog[s.pc - 1]? = some w ∧ exec (decode w) s = .next t) := by
  rcases fetch_cases s with ⟨-, hf⟩ | ⟨-, -, hf⟩ | ⟨hs, hp, hf⟩
  · simp [step, hf] at h
  · simp [step, hf] at h
  · refine ⟨hs, hp, ?_⟩
    rcases hw : s.prog[s.pc - 1]? with _ | w
    · refine .inl ⟨rfl, ?_⟩
      simpa [step, hf, hw, eq_comm] using h
    · refine .inr ⟨w, rfl, ?_⟩
      simpa [step, hf, hw] using h

/-- A word placed for the next step is the word the next step fetches. -/
theorem setOrExtend_get {α : Type} (d x : α) (n : Nat) (l : List α) : (setOrExtend d x n l)[n]? = some x := by
  induction n generalizing l with
  | zero => cases l <;> rfl
  | succ n ih => cases l <;> simp [setOrExtend, ih]

/-- The next step after placing a word runs that word. -/
theorem step_placeWord (w : InstrWord) (s : State) : step (placeWord w s) = exec (decode w) (placeWord w s) := by
  have hf : fetch (placeWord w s) = .ok (some w) := by
    rcases fetch_cases (placeWord w s) with ⟨h, -⟩ | ⟨-, h, -⟩ | ⟨-, -, h⟩
    · simp at h
    · simp at h
    · rw [h]
      have hp : (placeWord w s).pc - 1 = s.pc - 1 := by
        simp only [placeWord_pc]
        omega
      rw [hp, placeWord_prog, setOrExtend_get]
  rw [step, hf]

end Sys2Proof.Machine
end

