-- ==== Sys2Proof/Laws/PerInstr.lean ====
section
/-! SUPPORT. Statements about every instruction as syntax, one lemma per constructor. -/

namespace Sys2Proof.Laws.EncodesOpcode

/-- The `op` field of an instruction's word is its row of the opcode map (spec/30_encoding.md R86, R89). -/
def Statement (i : Instr) : Prop := opField (encode i) = opcode i

theorem nop : Statement .nop := opField_packWord _ _ _ _ _

theorem mov (dst src : Option Operand) : Statement (.mov dst src) := opField_packWord _ _ _ _ _

theorem add (dst src : Option Operand) : Statement (.add dst src) := opField_packWord _ _ _ _ _

theorem sub (dst src : Option Operand) : Statement (.sub dst src) := opField_packWord _ _ _ _ _

theorem mul (dst src : Option Operand) : Statement (.mul dst src) := opField_packWord _ _ _ _ _

theorem div (dst src : Option Operand) : Statement (.div dst src) := opField_packWord _ _ _ _ _

theorem hlt : Statement .hlt := opField_packWord _ _ _ _ _

theorem missing : Statement .missing := opField_packWord _ _ _ _ _

theorem reserved (op : BitVec 4) : Statement (.reserved op) := opField_packWord _ _ _ _ _

end Sys2Proof.Laws.EncodesOpcode
end

