-- ==== Sys2Proof/Tests/Slice0.lean ====
section
/-! SUPPORT. Small tests whose expected results come from the spec (95_test_vectors.md unless a comment says otherwise), and
for every statement with hypotheses a witness that meets them. -/

namespace Sys2Proof.Tests

open Sys2Proof Sys2Proof.Machine

/-! ### Helpers -/

/-- The bytes of an ASCII text. -/
def text (s : String) : Text := s.toList.map fun c => BitVec.ofNat 8 c.toNat

/-- A state at line 1 of an empty program, N = 16, with four register values. -/
def at1 (a b c d : Word) : State := { State.reset with regs := { x0 := a, x1 := b, x2 := c, x3 := d } }

/-- The state after an outcome, if it is a next state. -/
def nextOf : Host.Outcome State Fault Refusal → Option State
  | .next t => some t
  | .fault _ => none
  | .refused _ => none

def regsAfter (i : Instr) (s : State) : Option RegFile := (nextOf (exec i s)).map fun t => t.regs
def memAfter (i : Instr) (s : State) : Option Memory := (nextOf (exec i s)).map fun t => t.mem
def traceAfter (i : Instr) (s : State) : Option (List Event) := (nextOf (exec i s)).map fun t => t.trace

/-- The word of a line under the parameters after reset. -/
def wordOf (s : String) : Option InstrWord :=
  match lineWord Params.default (text s) with
  | .ok w => some w
  | .error _ => none

def reg (i : Word) : Option Operand := some (.reg i)
def imm (v : Word) : Option Operand := some (.imm v)
def mem (a : Word) : Option Operand := some (.mem a)

/-! ### Well-formed terms: the one check is the range of a reserved opcode (30_encoding.md R90) -/

theorem test_wf_refuses_a_reserved_opcode_below_8 : Instr.wf (.reserved 7) = false := by decide
theorem test_wf_accepts_the_first_reserved_opcode : Instr.wf (.reserved 8) = true := by decide

/-! ### Words written out from 30_encoding.md R86 as sv, dv, sk, dk, op -/

theorem test_decode_nop : decode (0x00000009#32 ++ 0x00000000#32 ++ 0b10#2 ++ 0b01#2 ++ 0x0#4) = .nop := by decide
theorem test_decode_mov :
    decode (0x00000003#32 ++ 0x00000002#32 ++ 0b11#2 ++ 0b01#2 ++ 0x1#4) = .mov (reg 2) (mem 3) := by decide
theorem test_decode_mov_absent :
    decode (0x00000005#32 ++ 0x00000007#32 ++ 0b10#2 ++ 0b00#2 ++ 0x1#4) = .mov none (imm 5) := by decide
theorem test_decode_add :
    decode (0x00000001#32 ++ 0x00000000#32 ++ 0b01#2 ++ 0b01#2 ++ 0x2#4) = .add (reg 0) (reg 1) := by decide
theorem test_decode_sub :
    decode (0xFFFFFFFF#32 ++ 0x00000000#32 ++ 0b01#2 ++ 0b01#2 ++ 0x3#4) = .sub (reg 0) (reg 0xFFFFFFFF) := by decide
theorem test_decode_mul :
    decode (0x00000003#32 ++ 0x00000002#32 ++ 0b01#2 ++ 0b01#2 ++ 0x4#4) = .mul (reg 2) (reg 3) := by decide
theorem test_decode_div :
    decode (0x00000001#32 ++ 0x00000000#32 ++ 0b01#2 ++ 0b10#2 ++ 0x5#4) = .div (imm 0) (reg 1) := by decide
theorem test_decode_hlt : decode (0x00000007#32 ++ 0x00000063#32 ++ 0b10#2 ++ 0b11#2 ++ 0x6#4) = .hlt := by decide
theorem test_decode_missing :
    decode (0x00000002#32 ++ 0x00000001#32 ++ 0b01#2 ++ 0b01#2 ++ 0x7#4) = .missing := by decide
theorem test_decode_reserved :
    decode (0x00000005#32 ++ 0x00000000#32 ++ 0b10#2 ++ 0b01#2 ++ 0xF#4) = .reserved 0xF := by decide
/-- The example word of 30_encoding.md R96. -/
theorem test_encode_mov : encode (.mov (mem (-1)) (imm (-5))) = 0xFFFFFFFBFFFFFFFFB1 := by decide
theorem test_table_word : decodeTableWord 72 0x000000010000000052 = some (.add (reg 0) (reg 1)) := by decide

/-! ### Instructions, one step each -/

theorem test_mov_memory_to_register :
    traceAfter (.mov (reg 0) (mem 3)) { at1 0 0 0 0 with mem := [(3, 42)] } =
      some [.ok 1 .mov (.reg 0) (.mem 3) { x0 := 42, x1 := 0, x2 := 0, x3 := 0 }] := by decide
theorem test_mov_memory_to_memory :
    memAfter (.mov (mem 1) (mem 2)) { at1 0 0 0 0 with mem := [(2, 77)] } = some [(1, 77), (2, 77)] := by decide
theorem test_add_wraps : regsAfter (.add (reg 0) (reg 1)) (at1 2147483647 1 0 0) =
    some { x0 := 0x80000000, x1 := 1, x2 := 0, x3 := 0 } := by decide
theorem test_add_saturates :
    regsAfter (.add (reg 0) (reg 1))
      { at1 2147483647 1 0 0 with params := { Params.default with overflow := .saturate } } =
      some { x0 := 2147483647, x1 := 1, x2 := 0, x3 := 0 } := by decide
theorem test_sub_order : regsAfter (.sub (reg 0) (reg 1)) (at1 3 5 0 0) =
    some { x0 := 0xFFFFFFFE, x1 := 5, x2 := 0, x3 := 0 } := by decide
theorem test_sub_class_order : traceAfter (.sub (mem 0) (imm 5)) (at1 4 0 6 7) =
    some [.err 1 (.invalidRegister .dst)] := by decide
theorem test_mul_signed : regsAfter (.mul (reg 0) (reg 1)) (at1 (-3) 4 0 0) =
    some { x0 := -12, x1 := 4, x2 := 0, x3 := 0 } := by decide
theorem test_mul_wraps : regsAfter (.mul (reg 0) (reg 1)) (at1 65536 65536 0 0) =
    some { x0 := 0, x1 := 65536, x2 := 0, x3 := 0 } := by decide
theorem test_div_toward_zero : regsAfter (.div (reg 0) (reg 1)) (at1 (-7) 2 0 0) =
    some { x0 := -3, x1 := 2, x2 := 0, x3 := 0 } := by decide
theorem test_div_by_zero : traceAfter (.div (reg 0) (reg 1)) (at1 5 0 0 0) = some [.err 1 .divisionByZero] := by decide
theorem test_nop : nextOf (exec .nop (at1 1 0 3 4)) = some { at1 1 0 3 4 with pc := 2 } := by decide
theorem test_hlt : (nextOf (exec .hlt (at1 1 2 3 4))).map (fun t => (t.trace, t.pc, t.status)) =
    some ([.halted 1], 1, .halted) := by decide
theorem test_missing : traceAfter .missing (at1 1 0 3 4) = some [.err 1 .missingInstruction] := by decide
theorem test_reserved : traceAfter (.reserved 0x8) (at1 1 0 3 4) = some [.err 1 (.unknownInstruction 0x8)] := by decide

/-! ### The step -/

theorem test_step_runs_a_placed_word :
    (nextOf (step (State.reset.withFetchWord 72 0x000000050000000091))).map (fun t => (t.regs.x0, t.pc)) = some (5, 2) := by
  decide
/-- 42_control_and_sequencing.md R145: an empty program ends at once. -/
theorem test_step_of_reset : (nextOf (step State.reset)).map (fun t => t.trace) = some [.exhausted 1] := by decide
theorem test_error_codes :
    [ErrorKind.invalidRegister, .addressOutOfRange, .divisionByZero, .missingInstruction, .missingOperand,
      .unknownInstruction, .fileOpenFailure].map ErrorKind.code = [1, 2, 3, 4, 5, 6, 7] := by decide

/-! ### The front end -/

theorem test_line_permissive : wordOf "  MOV ax, 12abc" = some 0x0000000C0000000091 := by decide
theorem test_line_trailing_space : wordOf "ADD ax , ab" = some 0x000000010000000062 := by decide
theorem test_line_negative : wordOf "MOV ab,-4" = some 0xFFFFFFFC0000000191 := by decide
theorem test_line_bracket : wordOf "MOV [5]junk, 8" = some 0x0000000800000005B1 := by decide
theorem test_line_absent : wordOf "MOV ax," = some 0x000000000000000011 := by decide
theorem test_line_no_comma : wordOf "MOV" = some 0x01 ∧ wordOf "MOV ax" = some 0x11 := by decide
/-- 30_encoding.md R78, R96: token 1 is empty, so `dk` is 0b00. -/
theorem test_line_first_absent : wordOf "MOV , 5" = some 0x000000050000000081 := by decide
/-- 30_encoding.md R81: no digit after the optional sign. -/
theorem test_no_numeral :
    ["", "ax", "+", "-x", " 5"].map (fun s => leadingNumeral (text s)) = [none, none, none, none, none] := by decide
theorem test_line_halt_prefix : wordOf "HLTX" = some 0x000000000000000006 := by decide
theorem test_line_lower_case : wordOf "hlt" = some 0x00000000000000000F := by decide
theorem test_line_refused : wordOf "MOV ax, [ 5]" = none := by decide
theorem test_line_out_of_range : wordOf "MOV ax, 2147483648" = none := by decide
/-- 30_encoding.md R70: the text after the last line feed is a line only if it is not empty. -/
theorem test_lines : splitLines (text "a\n\nb\n") = [text "a", [], text "b"] := by decide

/-! ### Witnesses: a state and operands that meet a statement's hypotheses -/

/-- A state at line 1 of a one-word program. -/
def running (w : InstrWord) : State := { State.reset with prog := [w] }

theorem witness_decodeOfEncode : Instr.wf (.mov (reg 0) (imm 5)) = true := by decide
theorem witness_encodeOfDecode :
    1 ≤ (opField 0x000000050000000091).toNat ∧ (opField 0x000000050000000091).toNat ≤ 5 ∧
      dkField 0x000000050000000091 ≠ 0 ∧ skField 0x000000050000000091 ≠ 0 := by decide
theorem witness_ignoredFields_nop :
    opField 0x000000000000000000 = opField 0x000000090000000090 ∧ opField 0x000000000000000000 = 0 := by decide
theorem witness_ignoredFields_hlt :
    opField 0x000000000000000006 = opField 0x0000000700000063B6 ∧ 6 ≤ (opField 0x000000000000000006).toNat := by decide
theorem witness_stepRuns :
    (running 0x000000050000000091).status = .running ∧ 1 ≤ (running 0x000000050000000091).pc ∧
      (running 0x000000050000000091).prog[(running 0x000000050000000091).pc - 1]? = some 0x000000050000000091 ∧
      decode 0x000000050000000091 = .mov (reg 0) (imm 5) ∧ Instr.wf (.mov (reg 0) (imm 5)) = true := by decide
theorem witness_endOfInput :
    State.reset.status = .running ∧ State.reset.pc = State.reset.prog.length + 1 := by decide
theorem witness_noStepAfterEnd : ({ State.reset with status := .halted } : State).status ≠ .running := by decide
theorem witness_everyInstructionCompletes : Instr.nop ≠ .hlt := by decide
theorem witness_pcAdvance_exec : exec .nop State.reset = .next { State.reset with pc := 2 } := rfl
theorem witness_pcAdvance_endOfInput :
    step State.reset = .next (exhaust State.reset) ∧ State.reset.prog[State.reset.pc - 1]? = none := ⟨rfl, rfl⟩
/-- For the statements about any next state of a step: events, program, parameters, invariant. -/
theorem witness_step : step (running 0x00) = .next { running 0x00 with pc := 2 } := rfl
theorem witness_successReport :
    exec (.mov (reg 0) (imm 5)) State.reset =
        .next (wroteRegister .mov (.reg 0) (.imm 5) 0 5 State.reset) ∧
      (wroteRegister .mov (.reg 0) (.imm 5) 0 5 State.reset).trace =
        State.reset.trace ++ [.ok 1 .mov (.reg 0) (.imm 5) (State.reset.regs.set 0 5)] := ⟨rfl, rfl⟩
/-- The table's index bound at its last value, and addresses in range at both ends and out of range at both ends. -/
theorem witness_movForms :
    (3 : Word).toNat < 4 ∧ (0 ≤ (0 : Word).toInt ∧ (0 : Word).toInt < (State.reset.params.memSize : Int)) ∧
      (0 ≤ (15 : Word).toInt ∧ (15 : Word).toInt < (State.reset.params.memSize : Int)) ∧
      ¬(0 ≤ (16 : Word).toInt ∧ (16 : Word).toInt < (State.reset.params.memSize : Int)) ∧
      ¬(0 ≤ (-1 : Word).toInt ∧ (-1 : Word).toInt < (State.reset.params.memSize : Int)) := by decide
theorem witness_movFrame_register :
    exec (.mov (reg 3) (imm 5)) State.reset = .next (wroteRegister .mov (.reg 3) (.imm 5) 3 5 State.reset) := rfl
theorem witness_movFrame_memory :
    exec (.mov (mem 15) (imm 5)) State.reset = .next (wroteMemory .mov (.mem 15) (.imm 5) 15 5 State.reset) := rfl
theorem witness_movFrame_error :
    exec (.mov (mem 16) (imm 5)) State.reset = .next (failedWith (.addressOutOfRange 16) State.reset) ∧
      firstError (.mov (mem 16) (imm 5)) State.reset ≠ none := ⟨rfl, by decide⟩
theorem witness_movReadsBack :
    Memory.wf State.reset.mem = true ∧ 0 ≤ (15 : Word).toInt ∧ (15 : Word).toInt < (State.reset.params.memSize : Int) ∧
      resolveRead State.reset .src (.imm 9) = .ok 9 := ⟨rfl, by decide, by decide, rfl⟩
theorem witness_movToItself_memory :
    Memory.wf [(2, (77 : Word))] = true ∧
      firstError (.mov (mem 2) (mem 2)) { State.reset with mem := [(2, 77)] } = none := by decide
theorem witness_movToItself_register : firstError (.mov (reg 3) (reg 3)) State.reset = none := by decide
/-- For ADD, SUB, MUL, DIV and the same-register laws: both register fields at their last value, and a divisor that is not
zero and one that is. -/
theorem witness_arithmetic :
    (3 : Word).toNat < 4 ∧ ((at1 0 0 0 7).regs.get ⟨(3 : Word).toNat, by decide⟩).toInt ≠ 0 ∧
      ((at1 0 0 0 0).regs.get ⟨(3 : Word).toNat, by decide⟩).toInt = 0 := by decide
theorem witness_arithmeticFrame :
    exec (aluInstr .add (reg 0) (reg 1)) (at1 1 2 0 0) =
      .next (wroteRegister (.alu .add) (.reg 0) (.reg 1) 0 3 (at1 1 2 0 0)) := rfl
theorem witness_arithmeticFrame_error :
    exec (aluInstr .add (imm 0) (reg 1)) (at1 1 2 0 0) = .next (failedWith (.invalidRegister .dst) (at1 1 2 0 0)) ∧
      firstError (aluInstr .add (imm 0) (reg 1)) (at1 1 2 0 0) ≠ none := ⟨rfl, by decide⟩
theorem witness_clamp : 2 ≤ 32 ∧ intMin 32 ≤ 2147483647 ∧ (2147483647 : Int) ≤ intMax 32 := by decide
theorem witness_division :
    (2 : Int) ≠ 0 ∧ ((-7 : Int) < 0 ∧ (-2 : Int) < 0) ∧
      ¬((7 : Int) = 0 ∨ ((0 : Int) < 7 ∧ (0 : Int) < -2) ∨ ((7 : Int) < 0 ∧ (-2 : Int) < 0)) ∧
      (2 ≤ 32 ∧ (-1 : Word).toInt ≠ 0) := by decide
theorem witness_firstError :
    firstError (.mov (mem 16) (mem (-1))) State.reset = some (.addressOutOfRange (-1)) ∧
      firstError (.mov (reg 0) (imm 5)) State.reset = none := by decide
theorem witness_takingAnError :
    step (running 0x07) = .next (failedWith .missingInstruction (running 0x07)) ∧
      (failedWith .missingInstruction (running 0x07)).trace = (running 0x07).trace ++ [.err 1 .missingInstruction] :=
  ⟨rfl, rfl⟩
/-- For the table of errors: one raising for each kind. -/
theorem witness_errorsRaised :
    traceAfter (.add (imm 0) (reg 1)) State.reset = some [.err 1 (.invalidRegister .dst)] ∧
      traceAfter (.mov (mem 16) (imm 5)) State.reset = some [.err 1 (.addressOutOfRange 16)] ∧
      traceAfter (.div (reg 0) (reg 3)) State.reset = some [.err 1 .divisionByZero] ∧
      traceAfter .missing State.reset = some [.err 1 .missingInstruction] ∧
      traceAfter (.mov (reg 0) none) State.reset = some [.err 1 (.missingOperand 1)] ∧
      traceAfter (.reserved 15) State.reset = some [.err 1 (.unknownInstruction 15)] := by decide

/-- The invariant, at the first line of a one-line program. -/
theorem witness_runInvariant : RunInv (running 0x00) where
  admitted := by decide
  canonical := rfl
  bounded := by intro c hc; cases hc
  pcLow := by decide
  pcHigh := by decide
  fits := by decide
  trace :=
    { ordered := List.Pairwise.nil
      earlier := fun _ he => absurd he List.not_mem_nil
      steps := fun _ he => absurd he List.not_mem_nil
      legal := fun _ _ hx => absurd hx List.not_mem_nil }
theorem witness_everyRunEnds : RunInv (running 0x00) ∧ (running 0x00).status = .running :=
  ⟨witness_runInvariant, rfl⟩
theorem witness_launch :
    launch Params.default (some (text "MOV ax, 5\nHLT")) =
      .started (State.initial Params.default [0x000000050000000091, 0x06]) := by decide
theorem witness_initialValues_reset : State.reset = State.reset := rfl
theorem witness_memory :
    Memory.wf [(3, (5 : Word)), (15, 7)] = true := by decide
theorem witness_lines : (splitLines (text "HLT"))[0]? = some (text "HLT") := by decide
theorem witness_cutting :
    (text "a\n").getLast? = some lineFeed ∧ text "a" ≠ [] ∧ (text "a").getLast? ≠ some lineFeed := by decide
theorem witness_linesWithoutOperands : (text " \t").all isSpace = true ∧ text " \t" ≠ [] := by decide
theorem witness_unknownMnemonic :
    mnemonicText (text "FOO [abc]") ≠ [] ∧ hltText.isPrefixOf (trimLeading (text "FOO [abc]")) = false ∧
      mnemonicOf (mnemonicText (text "FOO [abc]")) = none := by decide
theorem witness_generalLine :
    mnemonicOf (text "DIV") = some (.alu .div) ∧ (text " ").all isSpace = true ∧ text " " ≠ [] ∧
      comma ∉ text "ax" ∧ (text "ax").head?.any isSpace = false ∧ (text "ab").head?.any isSpace = false := by decide
/-- An empty token meets the conditions on a token, and the line `MOV` those of a line with no comma. -/
theorem witness_generalLine_absent :
    mnemonicOf (text "MOV") = some .mov ∧ (text "").all isSpace = true ∧ comma ∉ text "" ∧
      (text "").head?.any isSpace = false ∧ (text "" ≠ [] ∨ text "" = []) := by decide
theorem witness_registerNames : paramsAdmitted Params.default = true := by decide
theorem witness_numerals :
    text "12" ≠ [] ∧ (text "12").all isDigit = true ∧ (text "abc").head?.any isDigit = false := by decide
/-- The tokens `bx`, `12abc` and `2147483648`: no numeral, a numeral with more after it, a numeral out of range. -/
theorem witness_immediateTokens :
    registerOf Params.default (text "bx") = none ∧ leadingNumeral (text "bx") = none ∧
      registerOf Params.default (text "12abc") = none ∧ (text "12abc").head? ≠ some leftBracket ∧
      leadingNumeral (text "12abc") = some (12, text "abc") ∧
      leadingNumeral (text "2147483648") = some (2147483648, []) ∧ ¬(2147483648 : Int) ≤ intMax 32 ∧
      Params.default.immParse = .permissive ∧
      ({ Params.default with immParse := .strict } : Params).immParse = .strict := by decide
theorem witness_memoryTokens :
    paramsAdmitted Params.default = true ∧ leadingNumeral (text "ax]") = none ∧
      leadingNumeral (text "-1]") = some (-1, text "]") ∧
      leadingNumeral (text "-2147483649]") = some (-2147483649, text "]") ∧ ¬intMin 32 ≤ -2147483649 := by decide
theorem witness_fourRegisters :
    lineInstr Params.default (text "ADD R2, R3") = .ok (instructionOf (.alu .add) (reg 2) (reg 3)) := by decide
theorem witness_refused :
    lineInstr Params.default (text "MOV ax, [ax]") = .error .malformedAddress ∧
      text "MOV ax, [ax]" ∈ splitLines (text "HLT\nMOV ax, [ax]") := by decide
theorem witness_tooLong :
    paramsAdmitted { Params.default with pcMax := 1 } = true ∧
      ({ Params.default with pcMax := 1 } : Params).pcMax ≤ (splitLines (text "HLT")).length := by decide
theorem witness_admitted :
    (splitLines (text "HLT")).length + 1 ≤ Params.default.pcMax ∧ lineInstr Params.default (text "HLT") = .ok .hlt := by
  decide

end Sys2Proof.Tests
end

/-! # The state of the machine (spec/10_state.md)

Each instruction is inverted once, in `exec_next`; the statements about a step are read off its four cases. -/

namespace Sys2Proof.Machine

/-! ### What every write keeps, whatever its target -/

@[simp] theorem commit_pc (g : Target) (x : Word) (s : State) : (commit g x s).pc = s.pc := by cases g <;> rfl
@[simp] theorem commit_status (g : Target) (x : Word) (s : State) : (commit g x s).status = s.status := by
  cases g <;> rfl
@[simp] theorem commit_trace (g : Target) (x : Word) (s : State) : (commit g x s).trace = s.trace := by
  cases g <;> rfl
@[simp] theorem commit_prog (g : Target) (x : Word) (s : State) : (commit g x s).prog = s.prog := by cases g <;> rfl
@[simp] theorem commit_params (g : Target) (x : Word) (s : State) : (commit g x s).params = s.params := by
  cases g <;> rfl

/-- A write target lies inside a memory of `n` words; every register does (20_memory.md R52). -/
def Target.inRange (n : Nat) : Target → Prop
  | .reg _ => True
  | .mem a => a < n

theorem commit_keeps_wf {s : State} (g : Target) (x : Word) (h : Memory.wf s.mem = true) :
    Memory.wf (commit g x s).mem = true := by
  cases g with
  | reg i => exact h
  | mem a => exact Memory.write_wf a x h

theorem commit_keeps_bounded {s : State} {g : Target} {n : Nat} (x : Word) (hg : g.inRange n)
    (h : ∀ c ∈ s.mem, c.1 < n) : ∀ c ∈ (commit g x s).mem, c.1 < n := by
  cases g with
  | reg i => exact h
  | mem a => exact Memory.write_bounded x hg h

/-! ### What a check that fails raises -/

@[simp] theorem except_ok_bind {ε α β : Type} (a : α) (f : α → Except ε β) : (Except.ok a >>= f) = f a := rfl

@[simp] theorem except_error_bind {ε α β : Type} (e : ε) (f : α → Except ε β) :
    (Except.error e >>= f) = .error e := rfl

/-- A check whose answer is only rewritten raises nothing of its own. -/
theorem except_bind_pure_error {ε α β : Type} {x : Except ε α} {f : α → β} {e : ε}
    (h : (x >>= fun a => pure (f a)) = .error e) : x = .error e := by
  rcases except_bind_error.mp h with hx | ⟨a, -, ha⟩
  · exact hx
  · cases ha

theorem regCheck_error {pos : Position} {f : Word} {e : Error} (h : regCheck pos f = .error e) :
    e = .invalidRegister pos := by
  rcases regCheck_cases pos f with ⟨_, hr⟩ | ⟨-, hr⟩
  · exact absurd (hr.symm.trans h) (by simp)
  · exact (Except.error.inj (hr.symm.trans h)).symm

theorem memCheck_error {n : Nat} {a : Int} {e : Error} (h : memCheck n a = .error e) :
    e = .addressOutOfRange a ∧ (a < 0 ∨ (n : Int) ≤ a) := by
  rcases memCheck_cases n a with ⟨-, -, hr⟩ | ⟨ha, hr⟩
  · exact absurd (hr.symm.trans h) (by simp)
  · exact ⟨(Except.error.inj (hr.symm.trans h)).symm, ha⟩

theorem regCheck_error_legal {n : Nat} {pos : Position} {f : Word} {e : Error} (h : regCheck pos f = .error e) :
    e.infoLegal n := by
  obtain rfl := regCheck_error h
  trivial

theorem memCheck_error_legal {n : Nat} {a : Int} {e : Error} (h : memCheck n a = .error e) : e.infoLegal n := by
  obtain ⟨rfl, ha⟩ := memCheck_error h
  exact ha

theorem bothOperands_error_legal {n : Nat} {dst src : Option Operand} {e : Error}
    (h : bothOperands dst src = .error e) : e.infoLegal n := by
  obtain ⟨rfl | rfl, rfl⟩ := bothOperands_error.mp h
  · cases src <;> simp [Error.infoLegal, presentCount]
  · cases dst <;> simp [Error.infoLegal, presentCount]

theorem resolveRead_error_legal {s : State} {pos : Position} {o : Operand} {e : Error}
    (h : resolveRead s pos o = .error e) : e.infoLegal s.params.memSize := by
  cases o with
  | reg f => exact regCheck_error_legal (except_bind_pure_error h)
  | imm v => cases h
  | mem f => exact memCheck_error_legal (except_bind_pure_error h)

theorem placeOf_error_legal {n : Nat} {o : Operand} {e : Error} (h : placeOf o = .error e) : e.infoLegal n := by
  cases o with
  | reg f => cases h
  | imm v =>
    cases h
    trivial
  | mem f => cases h

theorem registerField_error_legal {n : Nat} {pos : Position} {o : Operand} {e : Error}
    (h : registerField pos o = .error e) : e.infoLegal n := by
  cases o with
  | reg f => cases h
  | imm v =>
    cases h
    trivial
  | mem f =>
    cases h
    trivial

theorem resolveTarget_error_legal {s : State} {p : Place} {e : Error} (h : resolveTarget s p = .error e) :
    e.infoLegal s.params.memSize := by
  cases p with
  | reg f => exact regCheck_error_legal (except_bind_pure_error h)
  | mem f => exact memCheck_error_legal (except_bind_pure_error h)

theorem alu_error {w : Nat} {p : OverflowPolicy} {op : AluOp} {a b : BitVec w} {e : Error}
    (h : alu p op a b = .error e) : e = .divisionByZero := by
  rcases alu_cases p op a b with ⟨-, -, hr⟩ | ⟨-, hr⟩
  · exact (Except.error.inj (hr.symm.trans h)).symm
  · exact absurd (hr.symm.trans h) (by simp)

theorem moveWord_error_legal {dst src : Option Operand} {s : State} {e : Error} (h : moveWord dst src s = .error e) :
    e.infoLegal s.params.memSize := by
  rcases except_bind_error.mp h with hb | ⟨⟨d, v⟩, -, h⟩
  · exact bothOperands_error_legal hb
  rcases except_bind_error.mp h with hp | ⟨p, -, h⟩
  · exact placeOf_error_legal hp
  rcases except_bind_error.mp h with hx | ⟨x, -, h⟩
  · exact resolveRead_error_legal hx
  rcases except_bind_error.mp h with hg | ⟨g, -, h⟩
  · exact resolveTarget_error_legal hg
  · cases h

theorem registerRegister_error_legal {op : AluOp} {dst src : Option Operand} {s : State} {e : Error} {n : Nat}
    (h : registerRegister op dst src s = .error e) : e.infoLegal n := by
  rcases except_bind_error.mp h with hb | ⟨⟨d, v⟩, -, h⟩
  · exact bothOperands_error_legal hb
  rcases except_bind_error.mp h with hd | ⟨df, -, h⟩
  · exact registerField_error_legal hd
  rcases except_bind_error.mp h with hv | ⟨sf, -, h⟩
  · exact registerField_error_legal hv
  rcases except_bind_error.mp h with hi | ⟨i, -, h⟩
  · exact regCheck_error_legal hi
  rcases except_bind_error.mp h with hj | ⟨j, -, h⟩
  · exact regCheck_error_legal hj
  rcases except_bind_error.mp h with hy | ⟨y, -, h⟩
  · obtain rfl := alu_error hy
    trivial
  · cases h

/-! ### What an instruction can do -/

/-- All that instruction `i` in state `s` can come to (42_control_and_sequencing.md R140); `exec_next` ties it to
`exec`. -/
inductive Effect (i : Instr) (s : State) : State → Prop
  /-- A blank line: nothing but the advance (R141). -/
  | blank (hi : i = .nop) : Effect i s (advance s)
  /-- A halt line: the final event, and `pc` stays (R142). -/
  | halt (hi : i = .hlt) : Effect i s { report (.halted s.pc) s with status := .halted }
  /-- A raised error (60_exceptions.md R169), whose information is legal where a word decodes to the instruction. -/
  | failed (e : Error) (hi : i ≠ .hlt) (legal : i.wf = true → e.infoLegal s.params.memSize) :
      Effect i s (takeError e s)
  /-- A success: one write inside the machine, then the report (40_data_movement.md R112; 41_alu_arithmetic.md R123). -/
  | wrote (m : Mnemonic) (d v : Operand) (g : Target) (x : Word) (hi : i = instructionOf m (some d) (some v))
      (hg : g.inRange s.params.memSize) : Effect i s (advance (reportOk m d v (commit g x s)))

theorem instructionOf_ne_hlt (m : Mnemonic) (dst src : Option Operand) : instructionOf m dst src ≠ .hlt := by
  rcases m with _ | op
  · exact Instr.noConfusion
  · cases op <;> exact Instr.noConfusion

theorem exec_mov (dst src : Option Operand) (s : State) :
    exec (.mov dst src) s = settle s (moveWord dst src s) := rfl

theorem exec_aluInstr (op : AluOp) (dst src : Option Operand) (s : State) :
    exec (aluInstr op dst src) s = settle s (registerRegister op dst src s) := by
  cases op <;> rfl

theorem mov_effect {dst src : Option Operand} {s t : State} (h : exec (.mov dst src) s = .next t) :
    Effect (.mov dst src) s t := by
  rw [exec_mov] at h
  rcases settle_next.mp h with ⟨u, hu, rfl⟩ | ⟨e, he, rfl⟩
  · obtain ⟨d, v, x, rfl, rfl, -, hw⟩ := moveWord_ok hu
    rcases hw with ⟨f, -, hf, rfl⟩ | ⟨f, -, h0, h1, rfl⟩
    · exact .wrote .mov d v (.reg ⟨f.toNat, hf⟩) x rfl trivial
    · refine .wrote .mov d v (.mem f.toInt.toNat) x rfl ?_
      show f.toInt.toNat < s.params.memSize
      omega
  · exact .failed e Instr.noConfusion fun _ => moveWord_error_legal he

theorem aluInstr_effect {op : AluOp} {dst src : Option Operand} {s t : State}
    (h : exec (aluInstr op dst src) s = .next t) : Effect (aluInstr op dst src) s t := by
  rw [exec_aluInstr] at h
  rcases settle_next.mp h with ⟨u, hu, rfl⟩ | ⟨e, he, rfl⟩
  · obtain ⟨df, sf, rfl, rfl, hd, -, -, rfl⟩ := registerRegister_ok hu
    exact .wrote (.alu op) _ _ (.reg ⟨df.toNat, hd⟩) _ rfl trivial
  · exact .failed e (instructionOf_ne_hlt _ _ _) fun _ => registerRegister_error_legal he

/-- A well-formed reserved instruction carries an opcode that an `UnknownInstruction` may name (60_exceptions.md R166). -/
theorem reserved_infoLegal {n : Nat} {op : BitVec 4} (h : (Instr.reserved op).wf = true) :
    (Error.unknownInstruction op).infoLegal n := by
  simpa [Instr.wf, Error.infoLegal] using h

/-- The inversion of `exec`, one case per kind of line. -/
theorem exec_next {i : Instr} {s t : State} (h : exec i s = .next t) : Effect i s t := by
  cases i with
  | nop =>
    cases h
    exact .blank rfl
  | mov dst src => exact mov_effect h
  | add dst src => exact aluInstr_effect (op := .add) h
  | sub dst src => exact aluInstr_effect (op := .sub) h
  | mul dst src => exact aluInstr_effect (op := .mul) h
  | div dst src => exact aluInstr_effect (op := .div) h
  | hlt =>
    cases h
    exact .halt rfl
  | missing =>
    cases h
    exact .failed _ Instr.noConfusion fun _ => trivial
  | reserved op =>
    cases h
    exact .failed _ Instr.noConfusion fun hop => reserved_infoLegal hop

/-- Every word decodes to a well-formed instruction (30_encoding.md R90, R94). -/
theorem decode_wf (w : InstrWord) : (decode w).wf = true := by
  unfold decode
  split
  case h_9 =>
    simp only [imp_false] at *
    exact decide_eq_true (by omega)
  all_goals rfl

/-! ### The events of a run -/

theorem StepEvents.nil (n p : Nat) : StepEvents n p [] where
  ordered := List.Pairwise.nil
  earlier _ he := absurd he List.not_mem_nil
  steps _ he := absurd he List.not_mem_nil
  legal _ _ hx := absurd hx List.not_mem_nil

/-- Past its own lines, a list of events stays one of a run. -/
theorem StepEvents.mono {n p q : Nat} {t : List Event} (h : StepEvents n p t) (hpq : p ≤ q) : StepEvents n q t where
  ordered := h.ordered
  earlier e he := ⟨(h.earlier e he).1, lt_of_lt_of_le (h.earlier e he).2 hpq⟩
  steps := h.steps
  legal := h.legal

/-- The event of the line at `p` goes on with the events of the lines before it. -/
theorem StepEvents.snoc {n p : Nat} {t : List Event} {ev : Event} (h : StepEvents n p t) (hp : 1 ≤ p)
    (hline : ev.line = p) (hstep : ev.isStep = true) (hlegal : ∀ k x, ev = .err k x → Error.infoLegal n x) :
    StepEvents n (p + 1) (t ++ [ev]) where
  ordered := by
    rw [List.map_append, List.pairwise_append]
    refine ⟨h.ordered, List.pairwise_singleton _ _, ?_⟩
    intro a ha b hb
    obtain ⟨e, he, rfl⟩ := List.mem_map.mp ha
    obtain rfl : b = ev.line := List.mem_singleton.mp hb
    rw [hline]
    exact (h.earlier e he).2
  earlier e he := by
    rcases List.mem_append.mp he with he | he
    · obtain ⟨hlow, hhigh⟩ := h.earlier e he
      exact ⟨hlow, Nat.lt_succ_of_lt hhigh⟩
    · obtain rfl := List.mem_singleton.mp he
      omega
  steps e he := by
    rcases List.mem_append.mp he with he | he
    · exact h.steps e he
    · obtain rfl := List.mem_singleton.mp he
      exact hstep
  legal k x hx := by
    rcases List.mem_append.mp hx with hx | hx
    · exact h.legal k x hx
    · exact hlegal k x (List.mem_singleton.mp hx).symm

theorem traceOk_of_running {s : State} (h : s.status = .running) :
    traceOk s ↔ StepEvents s.params.memSize s.pc s.trace := by
  rw [traceOk, h]

/-! ### The invariant of a run -/

/-- The start of a run of a program that fits meets the invariant (10_state.md R34). -/
theorem runInv_initial {p : Params} {l : List InstrWord} (hp : paramsAdmitted p = true) (hl : l.length + 1 ≤ p.pcMax) :
    RunInv (State.initial p l) where
  admitted := hp
  canonical := rfl
  bounded _ hc := absurd hc List.not_mem_nil
  pcLow := le_rfl
  pcHigh := Nat.le_add_left 1 _
  fits := hl
  trace := .nil _ _

/-- The step at the end of the input keeps the invariant (42_control_and_sequencing.md R145). -/
theorem RunInv.afterExhaust {s : State} (h : RunInv s) (hs : s.status = .running) (hend : s.prog[s.pc - 1]? = none) :
    RunInv (exhaust s) where
  admitted := h.admitted
  canonical := h.canonical
  bounded := h.bounded
  pcLow := h.pcLow
  pcHigh := h.pcHigh
  fits := h.fits
  trace := by
    have hpast : s.prog.length ≤ s.pc - 1 := List.getElem?_eq_none_iff.mp hend
    have hlow := h.pcLow
    have hhigh := h.pcHigh
    have hpc : s.pc = s.prog.length + 1 := by omega
    exact ⟨hpc, s.trace, rfl, (traceOk_of_running hs).mp h.trace⟩

/-- A halt line keeps the invariant (42_control_and_sequencing.md R142). -/
theorem RunInv.afterHalt {s : State} (h : RunInv s) (hs : s.status = .running) (hline : s.pc ≤ s.prog.length) :
    RunInv { report (.halted s.pc) s with status := .halted } where
  admitted := h.admitted
  canonical := h.canonical
  bounded := h.bounded
  pcLow := h.pcLow
  pcHigh := h.pcHigh
  fits := h.fits
  trace := ⟨hline, s.trace, rfl, (traceOk_of_running hs).mp h.trace⟩

/-- A line that goes on to the next one keeps the invariant, if its memory and its trace do. -/
theorem RunInv.afterAdvance {s u : State} (h : RunInv s) (hline : s.pc ≤ s.prog.length) (hs : u.status = .running)
    (hpc : u.pc = s.pc) (hprog : u.prog = s.prog) (hparams : u.params = s.params) (hwf : Memory.wf u.mem = true)
    (hbounded : ∀ c ∈ u.mem, c.1 < s.params.memSize)
    (htrace : StepEvents s.params.memSize (s.pc + 1) u.trace) : RunInv (advance u) where
  admitted := by simpa [hparams] using h.admitted
  canonical := hwf
  bounded := by simpa [hparams] using hbounded
  pcLow := Nat.le_add_left 1 _
  pcHigh := by simpa [hpc, hprog] using hline
  fits := by simpa [hprog, hparams] using h.fits
  trace := by
    rw [traceOk_of_running (s := advance u) hs]
    simpa [hpc, hparams] using htrace

/-- Every effect of a well-formed instruction at a line of the program keeps the invariant. -/
theorem RunInv.afterEffect {i : Instr} {s t : State} (h : RunInv s) (hs : s.status = .running)
    (hline : s.pc ≤ s.prog.length) (hi : i.wf = true) (he : Effect i s t) : RunInv t := by
  have hev : StepEvents s.params.memSize s.pc s.trace := (traceOk_of_running hs).mp h.trace
  cases he with
  | blank _ => exact h.afterAdvance hline hs rfl rfl rfl h.canonical h.bounded (hev.mono (Nat.le_succ _))
  | halt _ => exact h.afterHalt hs hline
  | failed e _ legal =>
    have hlegal : ∀ k x, Event.err s.pc e = .err k x → x.infoLegal s.params.memSize := by
      intro k x hx
      obtain ⟨-, rfl⟩ := Event.err.inj hx
      exact legal hi
    exact h.afterAdvance (u := report (.err s.pc e) s) hline hs rfl rfl rfl h.canonical h.bounded
      (hev.snoc h.pcLow rfl rfl hlegal)
  | wrote m d v g x _ hg =>
    have htrace : StepEvents s.params.memSize (s.pc + 1) (reportOk m d v (commit g x s)).trace := by
      rw [reportOk_trace, commit_trace, commit_pc]
      exact hev.snoc h.pcLow rfl rfl fun _ _ hx => Event.noConfusion hx
    exact h.afterAdvance hline (by simp [hs]) (by simp) (by simp) (by simp) (commit_keeps_wf g x h.canonical)
      (commit_keeps_bounded x hg h.bounded) htrace

/-- Settles O33: the inversion of a step, then of its instruction. -/
theorem stepKeepsTheInvariant : Obligations.StepKeepsTheInvariant := by
  intro s t h hstep
  obtain ⟨hs, -, ⟨hend, rfl⟩ | ⟨w, hw, hexec⟩⟩ := step_next hstep
  · exact h.afterExhaust hs hend
  · have hlt : s.pc - 1 < s.prog.length := (List.getElem?_eq_some_iff.mp hw).1
    exact h.afterEffect hs (by omega) (decode_wf w) (exec_next hexec)

/-- Settles O34: reset starts a run of the empty program. -/
theorem resetSatisfiesTheInvariant : Obligations.ResetSatisfiesTheInvariant :=
  runInv_initial (by decide) (by decide)

/-! ### The step -/

/-- Settles O8: the fetch of a run that is over faults. -/
theorem noStepAfterTheRunEnds : Obligations.NoStepAfterTheRunEnds := by
  intro s hs
  rcases fetch_cases s with ⟨-, hf⟩ | ⟨hrun, -⟩ | ⟨hrun, -⟩
  · rw [step, hf]
  · exact absurd hrun hs
  · exact absurd hrun hs

theorem Effect.pc_eq {i : Instr} {s t : State} (h : Effect i s t) :
    t.pc = if i = .hlt then s.pc else s.pc + 1 := by
  cases h with
  | blank hi => rw [if_neg (by simp [hi]), advance_pc]
  | halt hi => rw [if_pos hi, report_pc]
  | failed e hi _ => rw [if_neg hi, takeError_pc]
  | wrote m d v g x hi _ =>
    rw [if_neg (hi ▸ instructionOf_ne_hlt m _ _), advance_pc, reportOk_pc, commit_pc]

/-- Settles O10: by the effects of an instruction, and by the step past the last line. -/
theorem programCounterAdvancesByOne : Obligations.ProgramCounterAdvancesByOne := by
  refine ⟨fun i s t h => (exec_next h).pc_eq, ?_⟩
  intro s t h hend
  obtain ⟨-, -, ⟨-, rfl⟩ | ⟨w, hw, -⟩⟩ := step_next h
  · exact exhaust_pc s
  · exact absurd (hw.symm.trans hend) (by simp)

/-- Settles O13: of the four effects, only a success appends an `Ok` event. -/
theorem successReportShowsTheNewRegisters : Obligations.SuccessReportShowsTheNewRegisters := by
  intro i s t k m d v x h htrace
  cases exec_next h with
  | blank _ => simp at htrace
  | halt _ => simp at htrace
  | failed e _ _ => simp at htrace
  | wrote m' d' v' g y hi _ =>
    simp only [advance_trace, reportOk_trace, commit_trace, commit_pc, List.append_cancel_left_eq, List.cons.injEq,
      Event.ok.injEq, and_true] at htrace
    obtain ⟨rfl, rfl, rfl, rfl, rfl⟩ := htrace
    exact ⟨rfl, hi, rfl⟩

/-! ### The initial values -/

theorem initial_regs_get (p : Params) (l : List InstrWord) (i : Fin 4) : (State.initial p l).regs.get i = 0 := by
  fin_cases i <;> rfl

/-- Settles O36: reset and every launch give some `State.initial`. -/
theorem initialValues : Obligations.InitialValues := by
  intro s hs
  obtain ⟨p, l, rfl⟩ : ∃ p l, s = State.initial p l := by
    rcases hs with rfl | ⟨p, file, hlaunch⟩
    · exact ⟨Params.default, [], rfl⟩
    · obtain ⟨t, ws, -, -, -, -, rfl⟩ := launch_started hlaunch
      exact ⟨p, ws, rfl⟩
  exact ⟨initial_regs_get p l, fun _ => rfl, rfl, rfl, rfl⟩

/-! ### The ports -/

/-- A field that raises no bad-index signal names a register (10_state.md R24). -/
theorem rfBad_eq_false {f : Word} (h : f.toNat < 4) : rfBad f = false := decide_eq_false (Nat.not_le.mpr h)

theorem rfBad_eq_true {f : Word} (h : 4 ≤ f.toNat) : rfBad f = true := decide_eq_true h

theorem rfData_of_lt (x : RegFile) {f : Word} (h : f.toNat < 4) : rfData x f = x.get ⟨f.toNat, h⟩ := by
  rw [rfData, regCheck_of_lt h]

/-- The two wires of a write index carry the whole index of a register. -/
theorem setWidth_two_toFin {f : Word} (h : f.toNat < 4) : (f.setWidth 2).toFin = ⟨f.toNat, h⟩ := by
  apply Fin.ext
  show (f.setWidth 2).toNat = f.toNat
  rw [BitVec.toNat_setWidth]
  omega

/-- A step that drives the register file's write port alone writes that register (10_state.md R24). -/
theorem commitPorts_reg (m : Mnemonic) (d v : Operand) {f : Word} (h : f.toNat < 4) (x wa wd : Word) (s : State) :
    commitPorts m d v { we := true, waIdx := f.setWidth 2, wd := x } { we := false, wa := wa, wd := wd } s =
      reportOk m d v (commit (.reg ⟨f.toNat, h⟩) x s) := by
  simp only [commitPorts, rfCommit, memCommit, setWidth_two_toFin h]
  rfl

/-- A step that drives the memory's write port alone writes that cell (20_memory.md R64). -/
theorem commitPorts_mem (m : Mnemonic) (d v : Operand) (idx : BitVec 2) (wd a x : Word) (s : State) :
    commitPorts m d v { we := false, waIdx := idx, wd := wd } { we := true, wa := a, wd := x } s =
      reportOk m d v (commit (.mem a.toInt.toNat) x s) := rfl

/-- The source of a MOV as the read ports give it: the bad signal, or the datum (10_state.md R24; 20_memory.md R64). -/
def readByPorts (s : State) : Operand → Except Error Word
  | .reg f => if rfBad f then .error (.invalidRegister .src) else .ok (rfData s.regs f)
  | .imm x => .ok x
  | .mem f =>
    if memBad s.params.memSize f.toInt then .error (.addressOutOfRange f.toInt)
    else .ok (memData s.params.memSize s.mem f)

/-- The write of a MOV as the write ports take it: the bad signal, or both commits (10_state.md R24; 20_memory.md R64). -/
def writeByPorts (d v : Operand) (s : State) (x : Word) : Place → Except Error State
  | .reg f =>
    if rfBad f then .error (.invalidRegister .dst)
    else .ok (commitPorts .mov d v { we := true, waIdx := f.setWidth 2, wd := x } { we := false, wa := f, wd := x } s)
  | .mem f =>
    if memBad s.params.memSize f.toInt then .error (.addressOutOfRange f.toInt)
    else .ok (commitPorts .mov d v { we := false, waIdx := f.setWidth 2, wd := x } { we := true, wa := f, wd := x } s)

theorem readByPorts_eq_resolveRead (s : State) (v : Operand) : readByPorts s v = resolveRead s .src v := by
  cases v with
  | reg f =>
    rcases regCheck_cases .src f with ⟨hf, hr⟩ | ⟨hf, hr⟩
    · simp [readByPorts, resolveRead, hr, rfBad_eq_false hf, rfData_of_lt s.regs hf]
    · simp [readByPorts, resolveRead, hr, rfBad_eq_true hf]
  | imm x => rfl
  | mem f =>
    by_cases hf : memBad s.params.memSize f.toInt = true
    · simp [readByPorts, resolveRead, memCheck, hf]
    · simp [readByPorts, resolveRead, memCheck, memData, hf]

theorem writeByPorts_eq_commit (d v : Operand) (s : State) (x : Word) (p : Place) :
    writeByPorts d v s x p = resolveTarget s p >>= fun g => .ok (reportOk .mov d v (commit g x s)) := by
  cases p with
  | reg f =>
    rcases regCheck_cases .dst f with ⟨hf, hr⟩ | ⟨hf, hr⟩
    · simp [writeByPorts, resolveTarget, hr, rfBad_eq_false hf, commitPorts_reg _ _ _ hf]
    · simp [writeByPorts, resolveTarget, hr, rfBad_eq_true hf]
  | mem f =>
    by_cases hf : memBad s.params.memSize f.toInt = true
    · simp [writeByPorts, resolveTarget, memCheck, hf]
    · simp [writeByPorts, resolveTarget, memCheck, hf, commitPorts_mem]

/-- MOV over the ports is the destination's class check, the read and the write, in that order (60_exceptions.md R168). -/
theorem moveByPorts_eq_read_write (d v : Operand) (s : State) :
    moveByPorts (some d) (some v) s =
      placeOf d >>= fun p => readByPorts s v >>= fun x => writeByPorts d v s x p := by
  cases v with
  | reg f => cases h : rfBad f <;> cases d <;> simp [moveByPorts, readByPorts, writeByPorts, placeOf, valueField, h]
  | imm x => cases d <;> simp [moveByPorts, readByPorts, writeByPorts, placeOf, valueField]
  | mem f =>
    cases h : memBad s.params.memSize f.toInt <;> cases d <;>
      simp [moveByPorts, readByPorts, writeByPorts, placeOf, valueField, h]

/-- Settles O39: part by part, the reads and the writes over the ports are those of the rule. -/
theorem moveByPortsIsMove : Obligations.MoveByPortsIsMove := by
  intro dst src s
  match dst, src with
  | none, none => rfl
  | none, some v => rfl
  | some d, none => rfl
  | some d, some v =>
    rw [moveByPorts_eq_read_write]
    simp only [readByPorts_eq_resolveRead, writeByPorts_eq_commit]
    rfl

/-- `alu_op` selects the operation whose code drives it (41_alu_arithmetic.md R120). -/
theorem aluOpOf_aluOpCode (op : AluOp) : aluOpOf (aluOpCode op) = some op := by cases op <;> rfl

theorem aluDz_aluOpCode (op : AluOp) (b : Word) : aluDz (aluOpCode op) b = aluDivZero op b := by cases op <;> rfl

/-- Where the ALU has a result, `alu_y` is that result (41_alu_arithmetic.md R120). -/
theorem aluY_of_ok {p : OverflowPolicy} {op : AluOp} {a b y : Word} (h : alu p op a b = .ok y) :
    aluY p (aluOpCode op) a b = y := by
  simp only [aluY, aluOpOf_aluOpCode, h]

/-- The two output ports of the simple_alu, together, are its result or its error. -/
theorem alu_eq_ports (p : OverflowPolicy) (op : AluOp) (a b : Word) :
    alu p op a b =
      if aluDz (aluOpCode op) b then .error .divisionByZero else .ok (aluY p (aluOpCode op) a b) := by
  rw [aluDz_aluOpCode]
  by_cases hz : aluDivZero op b = true
  · rw [alu, if_pos hz, if_pos hz]
  · have hok : alu p op a b = .ok (clamp p (exactResult op a.toInt b.toInt)) := by rw [alu, if_neg hz]
    rw [if_neg hz, aluY_of_ok hok, hok]

/-- Two registers as operands: the ports check the indices and the divisor in the order of the rule
(60_exceptions.md R168). -/
theorem registerRegisterByPorts_reg_reg (op : AluOp) (d r : Word) (s : State) :
    registerRegisterByPorts op (some (.reg d)) (some (.reg r)) s =
      registerRegister op (some (.reg d)) (some (.reg r)) s := by
  rcases regCheck_cases .dst d with ⟨hd, hdc⟩ | ⟨hd, hdc⟩
  · rcases regCheck_cases .src r with ⟨hr, hrc⟩ | ⟨hr, hrc⟩
    · cases hz : aluDz (aluOpCode op) (s.regs.get ⟨r.toNat, hr⟩) <;>
        simp [registerRegisterByPorts, registerRegister, bothOperands, registerField, hdc, hrc, rfBad_eq_false hd,
          rfBad_eq_false hr, rfData_of_lt s.regs hd, rfData_of_lt s.regs hr, alu_eq_ports, hz, commitPorts_reg _ _ _ hd]
    · simp [registerRegisterByPorts, registerRegister, bothOperands, registerField, hdc, hrc, rfBad_eq_false hd,
        rfBad_eq_true hr]
  · simp [registerRegisterByPorts, registerRegister, bothOperands, registerField, hdc, rfBad_eq_true hd]

/-- Settles O40: an operand that is absent or no register raises the same error in both, and two registers are
`registerRegisterByPorts_reg_reg`. -/
theorem arithmeticByPortsIsArithmetic : Obligations.ArithmeticByPortsIsArithmetic := by
  intro op dst src s
  match dst, src with
  | none, none => rfl
  | none, some v => rfl
  | some d, none => rfl
  | some (.imm x), some v => rfl
  | some (.mem a), some v => rfl
  | some (.reg d), some (.imm x) => rfl
  | some (.reg d), some (.mem a) => rfl
  | some (.reg d), some (.reg r) => exact registerRegisterByPorts_reg_reg op d r s

end Sys2Proof.Machine

/-! # The memory array and the program store (spec/20_memory.md) -/

namespace Sys2Proof.Machine

/-! ### Reads of a listed memory -/

theorem Memory.read_cons_self (a : Nat) (v : Word) (m : Memory) : Memory.read ((a, v) :: m) a = v := if_pos rfl

theorem Memory.read_cons_of_ne {a c : Nat} (v : Word) (m : Memory) (h : c ≠ a) :
    Memory.read ((a, v) :: m) c = Memory.read m c := if_neg h

/-- An index that reads nonzero is not below the first listed one. -/
theorem Memory.head_le_of_read_ne_zero {a b : Nat} {u : Word} {m : Memory} (hm : Memory.above b m)
    (h : Memory.read ((b, u) :: m) a ≠ 0) : b ≤ a := by
  by_contra hab
  have hlt : a < b := Nat.not_le.mp hab
  refine h (Memory.read_of_above fun c hc => ?_)
  rcases List.mem_cons.mp hc with rfl | hc
  · exact hlt
  · exact lt_trans hlt (hm c hc)

/-- Two canonical lists that read alike begin with the same index: each first cell is nonzero, so neither lies below
the other. -/
theorem Memory.head_eq_of_read_eq {a b : Nat} {v u : Word} {m m' : Memory} (hv : v ≠ 0) (hu : u ≠ 0)
    (hm : Memory.above a m) (hm' : Memory.above b m')
    (h : ∀ c, Memory.read ((a, v) :: m) c = Memory.read ((b, u) :: m') c) : a = b := by
  apply le_antisymm
  · apply Memory.head_le_of_read_ne_zero hm
    rwa [h, Memory.read_cons_self]
  · apply Memory.head_le_of_read_ne_zero hm'
    rwa [← h, Memory.read_cons_self]

/-- After a common first cell, lists that read alike have rests that read alike. -/
theorem Memory.tail_read_eq {a : Nat} {v : Word} {m m' : Memory} (hm : Memory.above a m) (hm' : Memory.above a m')
    (h : ∀ c, Memory.read ((a, v) :: m) c = Memory.read ((a, v) :: m') c) (c : Nat) :
    Memory.read m c = Memory.read m' c := by
  by_cases hc : c = a
  · rw [hc, Memory.read_of_above hm, Memory.read_of_above hm']
  · simpa only [Memory.read_cons_of_ne v _ hc] using h c

/-- The one canonical list whose every index reads 0 is the empty one (20_memory.md R53). -/
theorem Memory.eq_nil_of_read_zero {m : Memory} (hw : Memory.wf m = true) (h : ∀ a, Memory.read m a = 0) : m = [] := by
  cases m with
  | nil => rfl
  | cons c m =>
    obtain ⟨a, v⟩ := c
    have hv : v ≠ 0 := ((Memory.wf_cons a v m).mp hw).1
    exact absurd ((Memory.read_cons_self a v m).symm.trans (h a)) hv

/-- Settles O38, by induction on the first list: the first cells agree, and then the rests do. -/
theorem memoryIsDeterminedByItsReads : Obligations.MemoryIsDeterminedByItsReads := by
  intro m
  induction m with
  | nil =>
    intro m' _ hw' h
    exact (Memory.eq_nil_of_read_zero hw' fun a => (h a).symm).symm
  | cons c m ih =>
    intro m' hw hw' h
    cases m' with
    | nil => exact Memory.eq_nil_of_read_zero hw h
    | cons c' m' =>
      obtain ⟨a, v⟩ := c
      obtain ⟨b, u⟩ := c'
      obtain ⟨hv, hm, hwm⟩ := (Memory.wf_cons a v m).mp hw
      obtain ⟨hu, hm', hwm'⟩ := (Memory.wf_cons b u m').mp hw'
      obtain rfl : a = b := Memory.head_eq_of_read_eq hv hu hm hm' h
      obtain rfl : v = u := by simpa only [Memory.read_cons_self] using h a
      rw [ih m' hwm hwm' (Memory.tail_read_eq hm hm' h)]

/-! ### What a step leaves unchanged -/

/-- No effect of an instruction reaches the program store or the parameters. -/
theorem Effect.prog_params_eq {i : Instr} {s t : State} (h : Effect i s t) : t.prog = s.prog ∧ t.params = s.params := by
  cases h with
  | blank _ => exact ⟨rfl, rfl⟩
  | halt _ => exact ⟨rfl, rfl⟩
  | failed _ _ _ => exact ⟨rfl, rfl⟩
  | wrote m d v g x _ _ => exact ⟨commit_prog g x s, commit_params g x s⟩

/-- Settles O12: by the effects of an instruction, and by the step past the last line. -/
theorem programAndParametersNeverChange : Obligations.ProgramAndParametersNeverChange := by
  intro s t h
  obtain ⟨-, -, ⟨-, rfl⟩ | ⟨w, -, hexec⟩⟩ := step_next h
  · exact ⟨exhaust_prog s, exhaust_params s⟩
  · exact (exec_next hexec).prog_params_eq

/-! ### MOV to a cell -/

theorem resolveTarget_mem_of_inRange {s : State} {b : Word} (h0 : 0 ≤ b.toInt) (h1 : b.toInt < s.params.memSize) :
    resolveTarget s (.mem b) = .ok (.mem b.toInt.toNat) := by
  rw [resolveTarget, memCheck_of_lt h0 h1]
  rfl

/-- MOV to a cell in range, from a source that reads as `x` (40_data_movement.md R112). -/
theorem exec_mov_mem {s : State} {b x : Word} {v : Operand} (h0 : 0 ≤ b.toInt) (h1 : b.toInt < s.params.memSize)
    (hx : resolveRead s .src v = .ok x) :
    exec (.mov (some (.mem b)) (some v)) s =
      .next (advance (reportOk .mov (.mem b) v (commit (.mem b.toInt.toNat) x s))) := by
  have hmove : moveWord (some (.mem b)) (some v) s =
      .ok (reportOk .mov (.mem b) v (commit (.mem b.toInt.toNat) x s)) := by
    simp [moveWord, bothOperands, placeOf, hx, resolveTarget_mem_of_inRange h0 h1]
  rw [exec_mov, hmove]
  rfl

/-- Settles O20: the MOV commits the source's word, and the canonical memory reads it back. -/
theorem movToMemoryReadsBack : Obligations.MovToMemoryReadsBack := by
  intro s b x v hw h0 h1 hx
  refine ⟨_, exec_mov_mem h0 h1 hx, ?_, rfl, rfl⟩
  rw [advance_mem, reportOk_mem, commit_mem_mem]
  exact Memory.read_write_self _ x hw

end Sys2Proof.Machine

/-! # The instruction word (spec/30_encoding.md R85 to R95)

Decoding selects a row by `op` and hands it the two operands (`decode_eq_rowInstr`); each statement about words is a
statement about the rows and one about the fields. -/

namespace Sys2Proof.Machine

/-! ### The rows of the opcode map -/

/-- The instruction of the row that `op` selects, of two operands which some rows ignore (R89, R92). -/
def rowInstr (op : BitVec 4) (dst src : Option Operand) : Instr :=
  match op.toNat with
  | 0 => .nop
  | 1 => .mov dst src
  | 2 => .add dst src
  | 3 => .sub dst src
  | 4 => .mul dst src
  | 5 => .div dst src
  | 6 => .hlt
  | 7 => .missing
  | _ => .reserved op

theorem decode_eq_rowInstr (w : InstrWord) : decode w = rowInstr (opField w) (dstOperand w) (srcOperand w) := rfl

/-- The nine rows of R89, by their opcodes; `opcodeRow` ties them to `op`. -/
inductive OpcodeRow : BitVec 4 → Prop
  | nop : OpcodeRow 0
  | mov : OpcodeRow 1
  | add : OpcodeRow 2
  | sub : OpcodeRow 3
  | mul : OpcodeRow 4
  | div : OpcodeRow 5
  | hlt : OpcodeRow 6
  | missing : OpcodeRow 7
  | reserved {op : BitVec 4} (h : 8 ≤ op.toNat) : OpcodeRow op

/-- Every opcode has its row (R89, R90). -/
theorem opcodeRow (op : BitVec 4) : OpcodeRow op := by
  have hrows : ∀ o : BitVec 4,
      o = 0 ∨ o = 1 ∨ o = 2 ∨ o = 3 ∨ o = 4 ∨ o = 5 ∨ o = 6 ∨ o = 7 ∨ 8 ≤ o.toNat := by decide
  rcases hrows op with rfl | rfl | rfl | rfl | rfl | rfl | rfl | rfl | h
  · exact .nop
  · exact .mov
  · exact .add
  · exact .sub
  · exact .mul
  · exact .div
  · exact .hlt
  · exact .missing
  · exact .reserved h

theorem rowInstr_reserved {op : BitVec 4} (h : 8 ≤ op.toNat) (dst src : Option Operand) :
    rowInstr op dst src = .reserved op := by
  unfold rowInstr
  split
  case h_9 => rfl
  all_goals omega

/-- A row is the row of its own opcode. -/
theorem opcode_rowInstr (op : BitVec 4) (dst src : Option Operand) : opcode (rowInstr op dst src) = op := by
  cases opcodeRow op with
  | reserved h => rw [rowInstr_reserved h, opcode]
  | nop | mov | add | sub | mul | div | hlt | missing => rfl

/-- NOP, HLT, MISSING and the reserved rows ignore their operands (R92). -/
theorem rowInstr_ignores_operands {op : BitVec 4} (h : op = 0 ∨ 6 ≤ op.toNat) (dst src dst' src' : Option Operand) :
    rowInstr op dst src = rowInstr op dst' src' := by
  cases opcodeRow op with
  | reserved hr => rw [rowInstr_reserved hr, rowInstr_reserved hr]
  | nop | hlt | missing => rfl
  | mov | add | sub | mul | div => exact absurd h (by decide)

/-- The rows of MOV, ADD, SUB, MUL and DIV encode both operands (R88). -/
theorem encode_rowInstr {op : BitVec 4} (h1 : 1 ≤ op.toNat) (h5 : op.toNat ≤ 5) (dst src : Option Operand) :
    encode (rowInstr op dst src) = operandWord op dst src := by
  cases opcodeRow op with
  | mov | add | sub | mul | div => rfl
  | nop => exact absurd h1 (by decide)
  | hlt | missing => exact absurd h5 (by decide)
  | reserved h => omega

/-! ### The fields of a word -/

theorem decode_packWord (op : BitVec 4) (dk sk : BitVec 2) (dv sv : Word) :
    decode (packWord op dk sk dv sv) = rowInstr op (operandOf dk dv) (operandOf sk sv) := by
  rw [decode_eq_rowInstr, dstOperand, srcOperand, opField_packWord, dkField_packWord, skField_packWord,
    dvField_packWord, svField_packWord]

theorem decode_operandWord (op : BitVec 4) (dst src : Option Operand) :
    decode (operandWord op dst src) = rowInstr op dst src := by
  rw [operandWord, decode_packWord, operandOf_kindCode, operandOf_kindCode]

/-- The five fields of R86 hold every bit of a word. -/
theorem packWord_fields (w : InstrWord) :
    packWord (opField w) (dkField w) (skField w) (dvField w) (svField w) = w := by
  apply BitVec.eq_of_toNat_eq
  have hw := w.isLt
  rw [packWord_toNat, opField, dkField, skField, dvField, svField]
  simp only [BitVec.extractLsb'_toNat, Nat.shiftRight_eq_div_pow]
  omega

/-- The kind codes of R87. -/
theorem kind_codes (k : BitVec 2) : k = 0 ∨ k = 1 ∨ k = 2 ∨ k = 3 := by
  revert k
  decide

theorem kindCode_operandOf (k : BitVec 2) (f : Word) : kindCode (operandOf k f) = k := by
  rcases kind_codes k with rfl | rfl | rfl | rfl <;> rfl

/-- A present operand keeps its whole value field (R88). -/
theorem valueField_operandOf {k : BitVec 2} (hk : k ≠ 0) (f : Word) : valueField (operandOf k f) = f := by
  rcases kind_codes k with rfl | rfl | rfl | rfl
  · exact absurd rfl hk
  all_goals rfl

/-- Two present operands and the opcode are the whole word. -/
theorem operandWord_fields {w : InstrWord} (hdk : dkField w ≠ 0) (hsk : skField w ≠ 0) :
    operandWord (opField w) (dstOperand w) (srcOperand w) = w := by
  rw [operandWord, dstOperand, srcOperand, kindCode_operandOf, kindCode_operandOf, valueField_operandOf hdk,
    valueField_operandOf hsk, packWord_fields]

/-! ### Decoding and encoding -/

/-- Settles O1: the word of each row, decoded by its fields. -/
theorem decodeOfEncodeIsTheInstruction : Obligations.DecodeOfEncodeIsTheInstruction := by
  intro i hi
  cases i with
  | nop => exact decode_operandWord 0 none none
  | mov dst src => exact decode_operandWord 1 dst src
  | add dst src => exact decode_operandWord 2 dst src
  | sub dst src => exact decode_operandWord 3 dst src
  | mul dst src => exact decode_operandWord 4 dst src
  | div dst src => exact decode_operandWord 5 dst src
  | hlt => exact decode_operandWord 6 none none
  | missing => exact decode_operandWord 7 none none
  | reserved op =>
    have h8 : 8 ≤ op.toNat := of_decide_eq_true hi
    exact (decode_operandWord op none none).trans (rowInstr_reserved h8 none none)

/-- Settles O2: the row encodes both operands, and they are all that its word holds. -/
theorem encodeOfDecodeIsTheWord : Obligations.EncodeOfDecodeIsTheWord := by
  intro w h1 h5 hdk hsk
  rw [decode_eq_rowInstr, encode_rowInstr h1 h5, operandWord_fields hdk hsk]

/-- Settles O3: the row's own opcode, and `decode_wf`. -/
theorem everyWordSelectsTheRowOfItsOpcode : Obligations.EveryWordSelectsTheRowOfItsOpcode := by
  intro w
  refine ⟨?_, decode_wf w⟩
  rw [decode_eq_rowInstr, opcode_rowInstr]

/-- Settles O4: rows that ignore their operands, and kind 0, which gives no operand whatever the value field. -/
theorem ignoredFieldsChangeNothing : Obligations.IgnoredFieldsChangeNothing := by
  refine ⟨?_, ?_⟩
  · intro w w' hop h
    rw [decode_eq_rowInstr, decode_eq_rowInstr, ← hop]
    exact rowInstr_ignores_operands h _ _ _ _
  · intro op dk sk dv dv' sv sv'
    simp only [decode_packWord]
    refine ⟨?_, ?_⟩
    · rintro rfl
      rfl
    · rintro rfl
      rfl

/-- Settles O5: each word by evaluation. -/
theorem exampleWordsDecode : Obligations.ExampleWordsDecode :=
  ⟨by decide, by decide, by decide, by decide, by decide, by decide⟩

/-! ### Totality of the instructions -/

theorem exec_is_next (i : Instr) (s : State) : ∃ t, exec i s = .next t := by
  cases i with
  | nop | hlt | missing | reserved _ => exact ⟨_, rfl⟩
  | mov dst src => exact settle_is_next s _
  | add dst src => exact settle_is_next s _
  | sub dst src => exact settle_is_next s _
  | mul dst src => exact settle_is_next s _
  | div dst src => exact settle_is_next s _

theorem Effect.status_eq {i : Instr} {s t : State} (h : Effect i s t) :
    t.status = if i = .hlt then .halted else s.status := by
  cases h with
  | blank hi => rw [if_neg (by simp [hi]), advance_status]
  | halt hi => rw [if_pos hi]
  | failed e hi _ => rw [if_neg hi, takeError_status]
  | wrote m d v g x hi _ =>
    rw [if_neg (hi ▸ instructionOf_ne_hlt m _ _), advance_status, reportOk_status, commit_status]

/-- Settles O9: every instruction has an effect, and only the halt's writes the status. -/
theorem everyInstructionCompletes : Obligations.EveryInstructionCompletes := by
  intro i s
  obtain ⟨t, ht⟩ := exec_is_next i s
  have hstatus := (exec_next ht).status_eq
  refine ⟨t, ht, fun hi => ?_, fun hi => ?_⟩
  · rw [hstatus, if_neg hi]
  · rw [hstatus, if_pos hi]

end Sys2Proof.Machine

/-! # Program text (spec/30_encoding.md R70 to R84)

A text is cut where a test on its characters first fails (`takeWhile_of_stop`, `dropWhile_of_stop`); the mnemonic, the
tokens and the numerals are such cuts. -/

namespace Sys2Proof.Machine

/-! ### Lines (R70) -/

@[simp] theorem splitLines_cons_lineFeed (t : Text) : splitLines (lineFeed :: t) = [] :: splitLines t := by
  rw [splitLines, if_pos rfl]

theorem splitLines_ne_nil {t : Text} (h : t ≠ []) : splitLines t ≠ [] := by
  obtain ⟨b, r, rfl⟩ := List.exists_cons_of_ne_nil h
  rw [splitLines]
  split
  · exact List.cons_ne_nil _ _
  · split <;> exact List.cons_ne_nil _ _

/-- A character that ends no line begins the first line, which is new at the end of the text. -/
theorem splitLines_cons {b : Byte} (hb : b ≠ lineFeed) (t : Text) :
    (t = [] ∧ splitLines (b :: t) = [[b]]) ∨
      ∃ l ls, t ≠ [] ∧ splitLines t = l :: ls ∧ splitLines (b :: t) = (b :: l) :: ls := by
  rcases eq_or_ne t [] with rfl | ht
  · exact .inl ⟨rfl, by rw [splitLines, if_neg hb, splitLines]⟩
  · obtain ⟨l, ls, hl⟩ := List.exists_cons_of_ne_nil (splitLines_ne_nil ht)
    exact .inr ⟨l, ls, ht, hl, by rw [splitLines, if_neg hb, hl]⟩

theorem lineFeed_notMem_of_mem_splitLines {t l : Text} (hl : l ∈ splitLines t) : lineFeed ∉ l := by
  induction t generalizing l with
  | nil => cases hl
  | cons b t ih =>
    by_cases hb : b = lineFeed
    · subst hb
      rw [splitLines_cons_lineFeed] at hl
      rcases List.mem_cons.mp hl with rfl | hl
      · exact List.not_mem_nil
      · exact ih hl
    · rcases splitLines_cons hb t with ⟨-, hs⟩ | ⟨l', ls, -, ht, hs⟩
      · rw [hs, List.mem_singleton] at hl
        simpa [hl] using Ne.symm hb
      · rw [hs] at hl
        rw [ht] at ih
        rcases List.mem_cons.mp hl with rfl | hl
        · simpa [Ne.symm hb] using ih List.mem_cons_self
        · exact ih (List.mem_cons_of_mem _ hl)

/-- The line feed that the last line of a text lacks, if it lacks one. -/
def missingLineFeed (t : Text) : Text := if t = [] ∨ t.getLast? = some lineFeed then [] else [lineFeed]

theorem missingLineFeed_cons_lineFeed (t : Text) : missingLineFeed (lineFeed :: t) = missingLineFeed t := by
  cases t with
  | nil => rfl
  | cons c t => simp [missingLineFeed]

theorem missingLineFeed_cons {t : Text} (ht : t ≠ []) (b : Byte) : missingLineFeed (b :: t) = missingLineFeed t := by
  obtain ⟨c, t, rfl⟩ := List.exists_cons_of_ne_nil ht
  simp [missingLineFeed]

theorem missingLineFeed_singleton {b : Byte} (hb : b ≠ lineFeed) : missingLineFeed [b] = [lineFeed] := by
  simp [missingLineFeed, hb]

/-- The lines, each with its line feed, are the text with its last line ended. -/
theorem flatMap_splitLines (t : Text) :
    (splitLines t).flatMap (fun l => l ++ [lineFeed]) = t ++ missingLineFeed t := by
  induction t with
  | nil => rfl
  | cons b t ih =>
    by_cases hb : b = lineFeed
    · subst hb
      rw [splitLines_cons_lineFeed, List.flatMap_cons, ih, missingLineFeed_cons_lineFeed]
      rfl
    · rcases splitLines_cons hb t with ⟨rfl, hs⟩ | ⟨l, ls, ht, hl, hs⟩
      · rw [hs, missingLineFeed_singleton hb]
        rfl
      · rw [hs, missingLineFeed_cons ht, List.cons_append, ← ih, hl]
        rfl

/-- Settles O42: by induction on the text, in both halves. -/
theorem cuttingIntoLinesLosesNothing : Obligations.CuttingIntoLinesLosesNothing := by
  intro t
  refine ⟨fun l hl => lineFeed_notMem_of_mem_splitLines hl, fun h => ?_, fun ht hlast => ?_⟩
  · rw [flatMap_splitLines, missingLineFeed, if_pos h, List.append_nil]
  · rw [flatMap_splitLines, missingLineFeed, if_neg (not_or.mpr ⟨ht, hlast⟩)]

/-! ### Cutting a text where a test first fails -/

theorem takeWhile_of_stop {p : Byte → Bool} {b : Text} (hb : b.head?.any p = false) : b.takeWhile p = [] := by
  cases b with
  | nil => rfl
  | cons c b => exact List.takeWhile_cons_of_neg (by simpa using hb)

theorem dropWhile_of_stop {p : Byte → Bool} {b : Text} (hb : b.head?.any p = false) : b.dropWhile p = b := by
  cases b with
  | nil => rfl
  | cons c b => exact List.dropWhile_cons_of_neg (by simpa using hb)

theorem takeWhile_append_of_stop {p : Byte → Bool} {a b : Text} (ha : a.all p = true) (hb : b.head?.any p = false) :
    (a ++ b).takeWhile p = a := by
  rw [List.takeWhile_append_of_pos (List.all_eq_true.mp ha), takeWhile_of_stop hb, List.append_nil]

theorem dropWhile_append_of_stop {p : Byte → Bool} {a b : Text} (ha : a.all p = true) (hb : b.head?.any p = false) :
    (a ++ b).dropWhile p = b := by
  rw [List.dropWhile_append_of_pos (List.all_eq_true.mp ha), dropWhile_of_stop hb]

/-! ### Numerals (R81, R82) -/

theorem splitSign_plus (t : Text) : splitSign (0x2B :: t) = (1, t) := rfl

theorem splitSign_minus (t : Text) : splitSign (0x2D :: t) = (-1, t) := rfl

/-- A digit is no sign. -/
theorem splitSign_digit {d : Byte} (hd : isDigit d = true) (t : Text) : splitSign (d :: t) = (1, d :: t) := by
  have hplus : d ≠ 0x2B := by
    rintro rfl
    exact absurd hd (by decide)
  have hminus : d ≠ 0x2D := by
    rintro rfl
    exact absurd hd (by decide)
  rw [splitSign, if_neg hminus, if_neg hplus]

/-- What follows the optional sign of a text is the rest of that text. -/
theorem append_splitSign (t : Text) :
    ∃ sign : Text, (sign = [] ∨ sign = [0x2B] ∨ sign = [0x2D]) ∧ t = sign ++ (splitSign t).2 := by
  cases t with
  | nil => exact ⟨[], .inl rfl, rfl⟩
  | cons b t =>
    by_cases hminus : b = 0x2D
    · exact ⟨[0x2D], .inr (.inr rfl), by rw [hminus]; rfl⟩
    · by_cases hplus : b = 0x2B
      · exact ⟨[0x2B], .inr (.inl rfl), by rw [hplus]; rfl⟩
      · exact ⟨[], .inl rfl, by rw [splitSign, if_neg hminus, if_neg hplus]; rfl⟩

/-- A sign and a run of digits are read to the run's end. -/
theorem leadingNumeral_of_digits {t ds rest : Text} {sign : Int} (ht : splitSign t = (sign, ds ++ rest)) (hne : ds ≠ [])
    (hds : ds.all isDigit = true) (hrest : rest.head?.any isDigit = false) :
    leadingNumeral t = some (sign * decimalValue ds, rest) := by
  obtain ⟨d, ds, rfl⟩ := List.exists_cons_of_ne_nil hne
  simp only [leadingNumeral, ht, takeWhile_append_of_stop hds hrest, dropWhile_append_of_stop hds hrest]

/-- A text has no leading numeral exactly when no digit follows its optional sign. -/
theorem leadingNumeral_eq_none {t : Text} :
    leadingNumeral t = none ↔ (splitSign t).2.head?.any isDigit = false := by
  rcases hs : splitSign t with ⟨sign, _ | ⟨b, r⟩⟩
  · simp [leadingNumeral, hs]
  · by_cases hb : isDigit b = true <;> simp [leadingNumeral, hs, hb]

/-- A text whose optional sign is followed by a digit, written out. -/
theorem digit_after_sign {t : Text} :
    (splitSign t).2.head?.any isDigit = true ↔
      ∃ (sign : Text) (d : Byte) (rest : Text), (sign = [] ∨ sign = [0x2B] ∨ sign = [0x2D]) ∧ isDigit d = true ∧
        t = sign ++ d :: rest := by
  refine ⟨fun h => ?_, ?_⟩
  · obtain ⟨sign, hsign, ht⟩ := append_splitSign t
    cases hbody : (splitSign t).2 with
    | nil => simp [hbody] at h
    | cons d rest => exact ⟨sign, d, rest, hsign, by simpa [hbody] using h, by rw [ht, hbody]⟩
  · rintro ⟨sign, d, rest, rfl | rfl | rfl, hd, rfl⟩
    · rw [List.nil_append, splitSign_digit hd]
      exact hd
    · exact hd
    · exact hd

theorem decimalValue_append (ds : Text) (b : Byte) :
    decimalValue (ds ++ [b]) = 10 * decimalValue ds + (b.toNat - 0x30) := by
  rw [decimalValue, List.foldl_append]
  rfl

/-- Settles O49: the sign is taken off, and the digits are cut where they end. -/
theorem numeralsAreReadToTheirEnd : Obligations.NumeralsAreReadToTheirEnd := by
  refine ⟨fun ds rest hne hds hrest => ⟨?_, ?_, ?_⟩, fun t => ?_, rfl, fun ds b _ => decimalValue_append ds b⟩
  · have hsign : splitSign (ds ++ rest) = (1, ds ++ rest) := by
      obtain ⟨d, ds, rfl⟩ := List.exists_cons_of_ne_nil hne
      exact splitSign_digit (List.all_eq_true.mp hds d List.mem_cons_self) _
    rw [leadingNumeral_of_digits hsign hne hds hrest, one_mul]
  · rw [leadingNumeral_of_digits (splitSign_plus _) hne hds hrest, one_mul]
  · rw [leadingNumeral_of_digits (splitSign_minus _) hne hds hrest, neg_one_mul]
  · rw [leadingNumeral_eq_none, ← digit_after_sign, Bool.not_eq_true]

/-! ### The named characters and texts -/

theorem isSpace_iff (b : Byte) : isSpace b = true ↔ b.toNat ∈ [0x20, 0x09, 0x0A, 0x0B, 0x0C, 0x0D] := by
  simp [isSpace, ← BitVec.toNat_inj, or_assoc]

theorem isDigit_iff (b : Byte) : isDigit b = true ↔ b.toNat ∈ "0123456789".toList.map Char.toNat := by
  have hdigits : "0123456789".toList.map Char.toNat = List.range' 0x30 10 := by decide
  rw [hdigits, List.mem_range'_1, isDigit, Bool.and_eq_true, decide_eq_true_eq, decide_eq_true_eq]
  omega

/-- The five mnemonics with their texts (R77); `mnemonicOf_eq_some` ties the table to `mnemonicOf`. -/
def mnemonicTable : List (Text × Mnemonic) :=
  [([0x4D, 0x4F, 0x56], .mov), ([0x41, 0x44, 0x44], .alu .add), ([0x53, 0x55, 0x42], .alu .sub),
    ([0x4D, 0x55, 0x4C], .alu .mul), ([0x44, 0x49, 0x56], .alu .div)]

theorem mnemonicOf_eq_some {t : Text} {m : Mnemonic} : mnemonicOf t = some m ↔ (t, m) ∈ mnemonicTable := by
  unfold mnemonicOf
  split_ifs <;> simp_all [mnemonicTable, eq_comm]

/-- Settles O54: the characters by their codes, the mnemonics by their table. -/
theorem textRulesUseTheNamedCharacters : Obligations.TextRulesUseTheNamedCharacters := by
  refine ⟨rfl, by decide, by decide, by decide, isSpace_iff, isDigit_iff, fun t m => ?_,
    fun _ => ⟨rfl, rfl, rfl, rfl⟩⟩
  have hinj : Function.Injective (Prod.map (List.map BitVec.toNat) id : Text × Mnemonic → List Nat × Mnemonic) :=
    (List.map_injective_iff.mpr BitVec.toNat_injective).prodMap Function.injective_id
  rw [mnemonicOf_eq_some, ← List.mem_map_of_injective hinj]
  rfl

end Sys2Proof.Machine

/-! # The front end and the launch (spec/30_encoding.md R71 to R96; spec/70_reset_and_hazards.md R190) -/

namespace Sys2Proof.Machine

/-! ### Whitespace and operand tokens (R74, R75, R78) -/

theorem trimLeading_append {pre t : Text} (hpre : pre.all isSpace = true) (ht : t.head?.any isSpace = false) :
    trimLeading (pre ++ t) = t :=
  dropWhile_append_of_stop hpre ht

theorem trimLeading_of_all {pre : Text} (hpre : pre.all isSpace = true) : trimLeading pre = [] := by
  simpa using trimLeading_append (t := []) hpre rfl

/-- Whitespace holds no comma. -/
theorem comma_notMem_of_all {gap : Text} (hgap : gap.all isSpace = true) : comma ∉ gap := fun h =>
  absurd (List.all_eq_true.mp hgap comma h) (by decide)

/-- A text without its leading whitespace is a token, where anything is left. -/
theorem tokenOf_append {gap t : Text} (hgap : gap.all isSpace = true) (ht : t.head?.any isSpace = false) :
    tokenOf (gap ++ t) = if t = [] then none else some t := by
  rw [tokenOf, trimLeading_append hgap ht]
  cases t <;> rfl

/-- Text without a comma passes the test that ends the first token. -/
theorem all_ne_comma {a : Text} (ha : comma ∉ a) : a.all (fun b => b != comma) = true := by
  rw [List.all_eq_true]
  intro b hb
  exact bne_iff_ne.mpr fun h => ha (h ▸ hb)

theorem operandTokens_comma {a : Text} (ha : comma ∉ a) (b : Text) :
    operandTokens (a ++ comma :: b) = (tokenOf a, tokenOf b) := by
  have hstop : (comma :: b).head?.any (fun c => c != comma) = false := rfl
  simp only [operandTokens, takeWhile_append_of_stop (all_ne_comma ha) hstop,
    dropWhile_append_of_stop (all_ne_comma ha) hstop]

theorem operandTokens_no_comma {a : Text} (ha : comma ∉ a) : operandTokens a = (tokenOf a, none) := by
  have hstop : ([] : Text).head?.any (fun c => c != comma) = false := rfl
  have htake := takeWhile_append_of_stop (all_ne_comma ha) hstop
  have hdrop := dropWhile_append_of_stop (all_ne_comma ha) hstop
  rw [List.append_nil] at htake hdrop
  simp only [operandTokens, htake, hdrop]

/-! ### The class of a line (R71 to R77) -/

theorem classifyLine_halt {pre : Text} (hpre : pre.all isSpace = true) (rest : Text) :
    classifyLine (pre ++ hltText ++ rest) = .halt := by
  have htrim : trimLeading (pre ++ hltText ++ rest) = hltText ++ rest := by
    rw [List.append_assoc]
    exact trimLeading_append hpre rfl
  rw [classifyLine, if_neg (by simp [hltText]), htrim, if_pos (by simp)]

theorem classifyLine_noMnemonic {pre : Text} (hpre : pre.all isSpace = true) (hne : pre ≠ []) :
    classifyLine pre = .noMnemonic := by
  rw [classifyLine, if_neg hne, mnemonicText, trimLeading_of_all hpre]
  rfl

theorem ne_nil_of_mnemonicText {l : Text} (h : mnemonicText l ≠ []) : l ≠ [] := by
  rintro rfl
  exact h rfl

theorem classifyLine_unknown {l : Text} (hne : mnemonicText l ≠ [])
    (hhlt : hltText.isPrefixOf (trimLeading l) = false) (hm : mnemonicOf (mnemonicText l) = none) :
    classifyLine l = .unknown := by
  simp only [classifyLine, if_neg (ne_nil_of_mnemonicText hne), hhlt, Bool.false_eq_true, if_false, if_neg hne, hm]

theorem classifyLine_instruction {l : Text} {m : Mnemonic} (hne : mnemonicText l ≠ [])
    (hhlt : hltText.isPrefixOf (trimLeading l) = false) (hm : mnemonicOf (mnemonicText l) = some m) :
    classifyLine l = .instruction m (operandTokens (operandText l)).1 (operandTokens (operandText l)).2 := by
  simp only [classifyLine, if_neg (ne_nil_of_mnemonicText hne), hhlt, Bool.false_eq_true, if_false, if_neg hne, hm]

/-- Settles O43: each line by its class. -/
theorem linesWithoutOperands : Obligations.LinesWithoutOperands := by
  intro p pre rest hpre
  refine ⟨rfl, ?_, fun hne => ?_⟩
  · rw [lineInstr, classifyLine_halt hpre]
  · rw [lineInstr, classifyLine_noMnemonic hpre hne]

/-- Settles O44: the line's class holds no operand. -/
theorem unknownMnemonicsAreReserved : Obligations.UnknownMnemonicsAreReserved := by
  intro p l hne hhlt hm
  rw [lineInstr, classifyLine_unknown hne hhlt hm]

/-! ### General lines (R75 to R78) -/

/-- A mnemonic is a text without whitespace; none begins with the `H` of a halt line. -/
theorem mnemonic_shape {name : Text} {m : Mnemonic} (h : mnemonicOf name = some m) :
    ∃ c r, name = c :: r ∧ c ≠ 0x48 ∧ name.all (fun b => !isSpace b) = true := by
  have htable : ∀ e ∈ mnemonicTable, e.1.head?.any (fun c => c != 0x48) = true ∧
      e.1.all (fun b => !isSpace b) = true := by decide
  obtain ⟨hhead, hspace⟩ := htable _ (mnemonicOf_eq_some.mp h)
  cases name with
  | nil => cases hhead
  | cons c r => exact ⟨c, r, rfl, by simpa using hhead, hspace⟩

/-- What begins with whitespace, or is empty, ends a mnemonic. -/
theorem gap_ends_mnemonic {gap t : Text} (hgap : gap.all isSpace = true) (h : gap ≠ [] ∨ t = []) :
    (gap ++ t).head?.any (fun b => !isSpace b) = false := by
  cases gap with
  | nil =>
    obtain rfl : t = [] := h.resolve_left fun hne => hne rfl
    rfl
  | cons b gap =>
    have hb : isSpace b = true := List.all_eq_true.mp hgap b List.mem_cons_self
    simp [hb]

/-- The class of a general line: its mnemonic, and the tokens of what follows it. -/
theorem classifyLine_general {name pre tail : Text} {m : Mnemonic} (hm : mnemonicOf name = some m)
    (hpre : pre.all isSpace = true) (htail : tail.head?.any (fun b => !isSpace b) = false) :
    classifyLine (pre ++ (name ++ tail)) = .instruction m (operandTokens tail).1 (operandTokens tail).2 := by
  obtain ⟨c, r, rfl, hc, hspace⟩ := mnemonic_shape hm
  have hhead : isSpace c = false := by simpa using List.all_eq_true.mp hspace c List.mem_cons_self
  have htrim : trimLeading (pre ++ (c :: r ++ tail)) = c :: r ++ tail := trimLeading_append hpre (by simpa using hhead)
  have hname : mnemonicText (pre ++ (c :: r ++ tail)) = c :: r := by
    rw [mnemonicText, htrim]
    exact takeWhile_append_of_stop hspace htail
  have htext : operandText (pre ++ (c :: r ++ tail)) = tail := by
    rw [operandText, htrim]
    exact dropWhile_append_of_stop hspace htail
  have hhlt : hltText.isPrefixOf (trimLeading (pre ++ (c :: r ++ tail))) = false := by
    have hH : ((0x48 : Byte) == c) = false := beq_eq_false_iff_ne.mpr (Ne.symm hc)
    rw [htrim, hltText, List.cons_append, List.isPrefixOf_cons_cons, hH, Bool.false_and]
  have hne : mnemonicText (pre ++ (c :: r ++ tail)) ≠ [] := by
    rw [hname]
    exact List.cons_ne_nil c r
  rw [classifyLine_instruction hne hhlt (by rw [hname, hm]), htext]

theorem lineInstr_instruction {p : Params} {l : Text} {m : Mnemonic} {t1 t2 : Option Text}
    (h : classifyLine l = .instruction m t1 t2) :
    lineInstr p l = (do
      let dst ← operandToken p t1
      let src ← operandToken p t2
      return instructionOf m dst src) := by
  rw [lineInstr, h]

/-- A token with nothing left is an absent operand (R78, R96). -/
theorem operandToken_tokenOf (p : Params) {gap t : Text} (hgap : gap.all isSpace = true)
    (ht : t.head?.any isSpace = false) :
    operandToken p (tokenOf (gap ++ t)) = if t = [] then .ok none else (classifyToken p t).map some := by
  rw [tokenOf_append hgap ht]
  split <;> rfl

/-- Settles O45: the line is cut at its mnemonic, and what follows at its first comma. -/
theorem generalLinesAreCutIntoMnemonicAndTokens : Obligations.GeneralLinesAreCutIntoMnemonicAndTokens := by
  intro p m name pre gap t1 gap2 t2 hm hpre hgap hgap2 hcomma ht1 ht2
  have hfirst : comma ∉ gap ++ t1 := by
    simpa using ⟨comma_notMem_of_all hgap, hcomma⟩
  refine ⟨fun hne => ?_, fun hne => ?_⟩
  · have htail := gap_ends_mnemonic (t := t1 ++ comma :: (gap2 ++ t2)) hgap (.inl hne)
    have hline : pre ++ name ++ gap ++ t1 ++ [comma] ++ gap2 ++ t2 =
        pre ++ (name ++ (gap ++ (t1 ++ comma :: (gap2 ++ t2)))) := by simp
    rw [hline, lineInstr_instruction (classifyLine_general hm hpre htail), ← List.append_assoc gap,
      operandTokens_comma hfirst, operandToken_tokenOf p hgap ht1, operandToken_tokenOf p hgap2 ht2]
  · have htail := gap_ends_mnemonic (t := t1) hgap hne
    have hline : pre ++ name ++ gap ++ t1 = pre ++ (name ++ (gap ++ t1)) := by simp
    rw [hline, lineInstr_instruction (classifyLine_general hm hpre htail), operandTokens_no_comma hfirst,
      operandToken_tokenOf p hgap ht1]
    rfl

/-! ### Register tokens (R80) -/

/-- The names that R7 admits for the open registers: all four names differ, and none begins with `[`. -/
theorem paramsAdmitted_names {p : Params} (h : paramsAdmitted p = true) :
    Function.Injective (registerName p) ∧ ∀ i, (registerName p i).head? ≠ some leftBracket := by
  simp only [paramsAdmitted, nameAdmitted, Bool.and_eq_true, decide_eq_true_eq] at h
  obtain ⟨⟨⟨⟨⟨⟨⟨_, hhead2, -⟩, hhead3, -⟩, h23⟩, h20⟩, h21⟩, h30⟩, h31⟩ := h
  refine ⟨?_, ?_⟩
  · rw [← List.nodup_ofFn]
    simpa [registerName, h23] using And.intro (And.intro h20.symm h30.symm) (And.intro h21.symm h31.symm)
  · intro i
    fin_cases i
    · simp [registerName, leftBracket]
    · simp [registerName, leftBracket]
    · exact hhead2
    · exact hhead3

/-- The tests of `registerOf` read the names in the order of their registers. -/
theorem registerOf_eq_find (p : Params) (t : Text) :
    registerOf p t = [0, 1, 2, 3].find? fun i => t = registerName p i := by
  unfold registerOf
  split_ifs <;> simp_all

theorem registerOf_eq_some {p : Params} {t : Text} {i : Fin 4} (h : paramsAdmitted p = true) :
    registerOf p t = some i ↔ t = registerName p i := by
  obtain ⟨hinj, -⟩ := paramsAdmitted_names h
  rw [registerOf_eq_find]
  refine ⟨fun hi => by simpa using List.find?_some hi, ?_⟩
  rintro rfl
  simp only [hinj.eq_iff]
  fin_cases i <;> rfl

/-- A memory token is no register's name, since no name that R7 admits begins with `[`. -/
theorem registerOf_bracket {p : Params} (h : paramsAdmitted p = true) (t : Text) :
    registerOf p (leftBracket :: t) = none := by
  obtain ⟨-, hhead⟩ := paramsAdmitted_names h
  rw [registerOf_eq_find, List.find?_eq_none]
  intro i _ hi
  exact hhead i (by rw [← of_decide_eq_true hi]; rfl)

/-! ### Memory and immediate tokens (R80 to R82) -/

theorem except_map_ok {ε α β : Type} {x : Except ε α} {f : α → β} {b : β} :
    x.map f = .ok b ↔ ∃ a, x = .ok a ∧ f a = b := by
  cases x <;> simp [Except.map]

theorem numeralWord_of_inRange {v : Int} (h : intMin 32 ≤ v ∧ v ≤ intMax 32) :
    ∃ x : Word, x.toInt = v ∧ numeralWord v = .ok x := by
  refine ⟨BitVec.ofInt 32 v, ?_, if_pos h⟩
  obtain ⟨hmin, hmax⟩ := h
  simp only [intMin, intMax] at hmin hmax
  exact BitVec.toInt_ofInt_eq_self (by decide) (by omega) (by omega)

theorem numeralWord_of_outOfRange {v : Int} (h : ¬(intMin 32 ≤ v ∧ v ≤ intMax 32)) :
    numeralWord v = .error .numeralOutOfRange := if_neg h

/-- The operand that a class makes of a numeral, in range and out of it (R81, R82). -/
theorem numeralOperand (v : Int) (f : Word → Operand) :
    (intMin 32 ≤ v ∧ v ≤ intMax 32 → ∃ x : Word, x.toInt = v ∧ (numeralWord v).map f = .ok (f x)) ∧
      (¬(intMin 32 ≤ v ∧ v ≤ intMax 32) → (numeralWord v).map f = .error .numeralOutOfRange) := by
  refine ⟨fun h => ?_, fun h => ?_⟩
  · obtain ⟨x, hx, hw⟩ := numeralWord_of_inRange h
    exact ⟨x, hx, by rw [hw]; rfl⟩
  · rw [numeralWord_of_outOfRange h]
    rfl

theorem classifyToken_memory {p : Params} {t : Text} (hr : registerOf p (leftBracket :: t) = none) :
    classifyToken p (leftBracket :: t) = memoryToken t := by
  simp only [classifyToken, hr, if_true]

theorem classifyToken_immediate {p : Params} {t : Text} (hr : registerOf p t = none)
    (ht : t.head? ≠ some leftBracket) : classifyToken p t = immediateToken p.immParse t := by
  cases t with
  | nil => simp only [classifyToken, hr]
  | cons b t =>
    have hb : b ≠ leftBracket := by simpa using ht
    simp only [classifyToken, hr, if_neg hb]

theorem memoryToken_numeral {t rest : Text} {v : Int} (h : leadingNumeral t = some (v, rest)) :
    memoryToken t = (numeralWord v).map .mem := by
  rw [memoryToken, h]

/-- A numeral is an immediate in both modes if nothing follows it, and under `permissive` always. -/
theorem immediateToken_numeral {mode : ImmParse} {t rest : Text} {v : Int} (h : leadingNumeral t = some (v, rest))
    (hmode : mode = .permissive ∨ rest = []) : immediateToken mode t = (numeralWord v).map .imm := by
  rcases hmode with rfl | rfl
  · simp only [immediateToken, h]
  · cases mode <;> simp only [immediateToken, h]

theorem immediateToken_trailing {t rest : Text} {v : Int} (h : leadingNumeral t = some (v, rest)) (hne : rest ≠ []) :
    immediateToken .strict t = .error .malformedImmediate := by
  obtain ⟨b, r, rfl⟩ := List.exists_cons_of_ne_nil hne
  simp only [immediateToken, h]

/-- Settles O47: no numeral, then a numeral by its mode and its range. -/
theorem immediateTokensFollowTheParseMode : Obligations.ImmediateTokensFollowTheParseMode := by
  intro p t hr _ hhead
  rw [classifyToken_immediate hr hhead]
  refine ⟨fun hnone => ⟨fun hmode => ?_, fun hmode => ?_⟩, fun v rest hnum => ⟨fun hmode => ?_, fun hmode hrest => ?_⟩⟩
  · simp only [hmode, immediateToken, hnone]
  · simp only [hmode, immediateToken, hnone]
  · rw [immediateToken_numeral hnum hmode]
    exact numeralOperand v .imm
  · rw [hmode, immediateToken_trailing hnum hrest]

/-- Settles O48: no register name begins with `[`, so the numeral after it decides. -/
theorem memoryTokensReadTheAddressAfterTheBracket : Obligations.MemoryTokensReadTheAddressAfterTheBracket := by
  intro p t hp
  rw [classifyToken_memory (registerOf_bracket hp t)]
  refine ⟨fun hnone => ?_, fun v rest hnum => ?_⟩
  · rw [memoryToken, hnone]
  · rw [memoryToken_numeral hnum]
    exact numeralOperand v .mem

/-! ### What a token and a line can give (R93, R96) -/

theorem memoryToken_ok {t : Text} {o : Operand} (h : memoryToken t = .ok o) : ∃ f, o = .mem f := by
  unfold memoryToken at h
  split at h
  · cases h
  · obtain ⟨f, -, rfl⟩ := except_map_ok.mp h
    exact ⟨f, rfl⟩

theorem immediateToken_ok {mode : ImmParse} {t : Text} {o : Operand} (h : immediateToken mode t = .ok o) :
    ∃ v, o = .imm v := by
  unfold immediateToken at h
  split at h
  · exact ⟨0, (Except.ok.inj h).symm⟩
  · cases h
  · obtain ⟨v, -, rfl⟩ := except_map_ok.mp h
    exact ⟨v, rfl⟩
  · obtain ⟨v, -, rfl⟩ := except_map_ok.mp h
    exact ⟨v, rfl⟩
  · cases h

/-- A register operand comes from a register's name only (R80, R93). -/
theorem classifyToken_reg {p : Params} {t : Text} {f : Word} :
    classifyToken p t = .ok (.reg f) ↔ ∃ i, registerOf p t = some i ∧ f = BitVec.ofNat 32 i.val := by
  refine ⟨fun h => ?_, ?_⟩
  · unfold classifyToken at h
    split at h
    · next i hi => exact ⟨i, hi, (Operand.reg.inj (Except.ok.inj h)).symm⟩
    · have himm {r : Text} (hr : immediateToken p.immParse r = .ok (.reg f)) : False := by
        obtain ⟨v, hv⟩ := immediateToken_ok hr
        cases hv
      split at h
      · exact (himm h).elim
      · split at h
        · obtain ⟨a, ha⟩ := memoryToken_ok h
          cases ha
        · exact (himm h).elim
  · rintro ⟨i, hi, rfl⟩
    simp only [classifyToken, hi]

theorem register_ofNat_inj {i j : Fin 4} : BitVec.ofNat 32 i.val = BitVec.ofNat 32 j.val ↔ i = j := by
  revert i j
  decide

/-- Settles O46: the four names differ, and only a name gives a register operand. -/
theorem registerNamesAreRegisters : Obligations.RegisterNamesAreRegisters := by
  intro p t i hp
  refine ⟨registerOf_eq_some hp, ?_⟩
  rw [classifyToken_reg, ← registerOf_eq_some hp]
  refine ⟨?_, fun hi => ⟨i, hi, rfl⟩⟩
  rintro ⟨j, hj, hij⟩
  rw [register_ofNat_inj.mp hij, hj]

theorem operandToken_reg_lt {p : Params} {t : Option Text} {f : Word} (h : operandToken p t = .ok (some (.reg f))) :
    f.toNat < 4 := by
  cases t with
  | none => cases h
  | some t =>
    obtain ⟨o, ho, hf⟩ := except_map_ok.mp h
    cases hf
    obtain ⟨i, -, rfl⟩ := classifyToken_reg.mp ho
    rw [BitVec.toNat_ofNat]
    omega

/-- All that the front end can make of a line (R71, R96). -/
theorem lineInstr_ok {p : Params} {l : Text} {i : Instr} (h : lineInstr p l = .ok i) :
    i ∈ [.nop, .hlt, .missing, .reserved 0xF] ∨
      ∃ m t1 t2 dst src, operandToken p t1 = .ok dst ∧ operandToken p t2 = .ok src ∧ i = instructionOf m dst src := by
  unfold lineInstr at h
  split at h
  case h_5 m t1 t2 _ =>
    obtain ⟨dst, hdst, h⟩ := except_bind_ok.mp h
    obtain ⟨src, hsrc, h⟩ := except_bind_ok.mp h
    exact .inr ⟨m, t1, t2, dst, src, hdst, hsrc, (Except.ok.inj h).symm⟩
  all_goals
    cases h
    exact .inl (by simp)

/-- The opcode of a mnemonic (R89). -/
def mnemonicCode : Mnemonic → BitVec 4
  | .mov => 1
  | .alu op => aluOpCode op

theorem instructionOf_eq_rowInstr (m : Mnemonic) (dst src : Option Operand) :
    instructionOf m dst src = rowInstr (mnemonicCode m) dst src := by
  rcases m with _ | op
  · rfl
  · cases op <;> rfl

theorem mnemonicCode_bounds (m : Mnemonic) : 1 ≤ (mnemonicCode m).toNat ∧ (mnemonicCode m).toNat ≤ 5 := by
  rcases m with _ | op
  · decide
  · cases op <;> decide

/-- A word of one of the five mnemonics holds its opcode and both operands. -/
theorem encode_instructionOf (m : Mnemonic) (dst src : Option Operand) :
    encode (instructionOf m dst src) = operandWord (mnemonicCode m) dst src := by
  obtain ⟨h1, h5⟩ := mnemonicCode_bounds m
  rw [instructionOf_eq_rowInstr, encode_rowInstr h1 h5]

theorem opcode_instructionOf (m : Mnemonic) (dst src : Option Operand) :
    opcode (instructionOf m dst src) = mnemonicCode m := by
  rw [instructionOf_eq_rowInstr, opcode_rowInstr]

/-- The instruction of a mnemonic determines its operands: its word holds them. -/
theorem instructionOf_operands {m m' : Mnemonic} {dst dst' src src' : Option Operand}
    (h : instructionOf m dst src = instructionOf m' dst' src') : dst = dst' ∧ src = src' := by
  have hw : operandWord (mnemonicCode m) dst src = operandWord (mnemonicCode m') dst' src' := by
    rw [← encode_instructionOf, ← encode_instructionOf, h]
  refine ⟨?_, ?_⟩
  · rw [← dstOperand_operandWord (mnemonicCode m) dst src, hw, dstOperand_operandWord]
  · rw [← srcOperand_operandWord (mnemonicCode m) dst src, hw, srcOperand_operandWord]

theorem instructionOf_wf (m : Mnemonic) (dst src : Option Operand) : (instructionOf m dst src).wf = true := by
  rcases m with _ | op
  · rfl
  · cases op <;> rfl

/-- An instruction of one of the five mnemonics is not reserved. -/
theorem instructionOf_ne_reserved (m : Mnemonic) (dst src : Option Operand) (op : BitVec 4) :
    instructionOf m dst src ≠ .reserved op := by
  rcases m with _ | op'
  · exact Instr.noConfusion
  · cases op' <;> exact Instr.noConfusion

/-- Settles O50: a line without operands, or operands that come from tokens. -/
theorem textNamesOnlyFourRegisters : Obligations.TextNamesOnlyFourRegisters := by
  intro p l i h
  rcases lineInstr_ok h with hi | ⟨m, t1, t2, dst, src, hdst, hsrc, rfl⟩
  · have hrow : ∀ j ∈ [Instr.nop, .hlt, .missing, .reserved 0xF],
        j.wf = true ∧ ¬(1 ≤ (opcode j).toNat ∧ (opcode j).toNat ≤ 5) ∧ (8 ≤ (opcode j).toNat → opcode j = 0xF) := by
      decide
    obtain ⟨hwf, hopcode, hreserved⟩ := hrow i hi
    refine ⟨hwf, ?_, ?_⟩
    · rintro op rfl
      exact hreserved (of_decide_eq_true hwf)
    · rintro m dst src f rfl
      rw [opcode_instructionOf] at hopcode
      exact absurd (mnemonicCode_bounds m) hopcode
  · refine ⟨instructionOf_wf m dst src, fun op hop => absurd hop (instructionOf_ne_reserved m dst src op), ?_⟩
    intro m' dst' src' f hi hf
    obtain ⟨rfl, rfl⟩ := instructionOf_operands hi
    rcases hf with rfl | rfl
    · exact operandToken_reg_lt hdst
    · exact operandToken_reg_lt hsrc

/-! ### Programs and their launch (R83, R96; 70_reset_and_hazards.md R190) -/

theorem lineInstr_wf {p : Params} {l : Text} {i : Instr} (h : lineInstr p l = .ok i) : i.wf = true :=
  (textNamesOnlyFourRegisters p l i h).1

/-- A translated program is the words of its lines, one each and in order. -/
theorem programWords_ok {p : Params} {k : Nat} {ls : List Text} {ws : List InstrWord} :
    programWords p k ls = .ok ws ↔ List.Forall₂ (fun l w => ∃ i, lineInstr p l = .ok i ∧ w = encode i) ls ws := by
  induction ls generalizing k ws with
  | nil => simp [programWords, eq_comm]
  | cons l ls ih =>
    rw [programWords_cons, List.forall₂_cons_left_iff]
    refine ⟨?_, ?_⟩
    · rintro ⟨i, rest, hi, hrest, rfl⟩
      exact ⟨encode i, rest, ⟨i, hi, rfl⟩, ih.mp hrest, rfl⟩
    · rintro ⟨w, rest, ⟨i, hi, rfl⟩, hrest, rfl⟩
      exact ⟨i, rest, hi, ih.mpr hrest, rfl⟩

/-- A program is translated exactly when no line is refused. -/
theorem exists_programWords_ok {p : Params} {k : Nat} {ls : List Text} :
    (∃ ws, programWords p k ls = .ok ws) ↔ ∀ l ∈ ls, ∃ i, lineInstr p l = .ok i := by
  induction ls generalizing k with
  | nil => simp [programWords]
  | cons l ls ih =>
    rw [List.forall_mem_cons, ← ih (k := k + 1)]
    simp only [programWords_cons]
    refine ⟨?_, ?_⟩
    · rintro ⟨ws, i, rest, hi, hrest, -⟩
      exact ⟨⟨i, hi⟩, rest, hrest⟩
    · rintro ⟨⟨i, hi⟩, rest, hrest⟩
      exact ⟨encode i :: rest, i, rest, hi, hrest, rfl⟩

/-- The launch of a file that opens starts a run or refuses it. -/
theorem launch_some_cases (p : Params) (t : Text) :
    (∃ s, launch p (some t) = .started s) ∨ ∃ r, launch p (some t) = .refused r := by
  unfold launch
  split
  · dsimp only
    split
    · split
      · exact .inr ⟨_, rfl⟩
      · exact .inl ⟨_, rfl⟩
    · exact .inr ⟨_, rfl⟩
  · exact .inr ⟨_, rfl⟩

theorem launch_of_programWords {p : Params} {t : Text} {ws : List InstrWord} (hp : paramsAdmitted p = true)
    (hlen : (splitLines t).length + 1 ≤ p.pcMax) (hws : programWords p 1 (splitLines t) = .ok ws) :
    launch p (some t) = .started (State.initial p ws) := by
  simp only [launch, hp, if_true, hlen, hws]

/-- Settles O41: the program holds the encoding of each line's instruction, which decodes to it. -/
theorem eachLineBecomesTheWordOfItsInstruction : Obligations.EachLineBecomesTheWordOfItsInstruction := by
  intro p t s h
  obtain ⟨t', ws, ht, -, -, hws, rfl⟩ := launch_started h
  obtain rfl := Option.some.inj ht
  have hlines := programWords_ok.mp hws
  refine ⟨hlines.length_eq.symm, fun k l hl => ?_⟩
  obtain ⟨hk, rfl⟩ := List.getElem?_eq_some_iff.mp hl
  have hk' : k < ws.length := hlines.length_eq ▸ hk
  obtain ⟨i, hi, hw⟩ := hlines.get hk hk'
  exact ⟨i, ws[k], hi, List.getElem?_eq_getElem hk', hw ▸ decodeOfEncodeIsTheInstruction i (lineInstr_wf hi)⟩

/-- Settles O51: a run that starts has no refused line, and fits. -/
theorem refusedProgramsHaveNoRun : Obligations.RefusedProgramsHaveNoRun := by
  intro p t _ hbad
  refine (launch_some_cases p t).resolve_left ?_
  rintro ⟨s, hs⟩
  obtain ⟨t', ws, ht, -, hlen, hws, -⟩ := launch_started hs
  obtain rfl := Option.some.inj ht
  rcases hbad with ⟨l, hl, r, hr⟩ | hlong
  · obtain ⟨i, hi⟩ := exists_programWords_ok.mp ⟨ws, hws⟩ l hl
    exact absurd (hr.symm.trans hi) (by simp)
  · omega

/-- Settles O52: every line has its word, and the run starts at line 1. -/
theorem admittedProgramsStart : Obligations.AdmittedProgramsStart := by
  intro p t hp hlen hlines
  obtain ⟨ws, hws⟩ := exists_programWords_ok.mpr hlines
  exact ⟨_, launch_of_programWords hp hlen hws, rfl, rfl⟩

end Sys2Proof.Machine

/-! # Data movement (spec/40_data_movement.md)

The rows of MOV's table are equations, one for each way the chain of R112 can end. The inversion of MOV, `exec_mov_next`,
rests on `raised_moveWord`: the chain raises the first error of R168's list. -/

namespace Sys2Proof.Machine

/-! ### What each class of operand reads as, and what it targets (R110, R111) -/

theorem resolveRead_reg (s : State) (pos : Position) {f : Word} (hf : f.toNat < 4) :
    resolveRead s pos (.reg f) = .ok (s.regs.get ⟨f.toNat, hf⟩) := by
  rw [resolveRead, regCheck_of_lt hf]
  rfl

theorem resolveRead_imm (s : State) (pos : Position) (v : Word) : resolveRead s pos (.imm v) = .ok v := rfl

theorem resolveRead_mem {s : State} (pos : Position) {f : Word} (hf : 0 ≤ f.toInt ∧ f.toInt < s.params.memSize) :
    resolveRead s pos (.mem f) = .ok (Memory.read s.mem f.toInt.toNat) := by
  rw [resolveRead, memCheck_of_lt hf.1 hf.2]
  rfl

theorem memCheck_of_not_inRange {n : Nat} {a : Int} (h : ¬(0 ≤ a ∧ a < n)) :
    memCheck n a = .error (.addressOutOfRange a) :=
  memCheck_of_bad (by omega)

theorem resolveRead_mem_of_not_inRange {s : State} (pos : Position) {f : Word}
    (hf : ¬(0 ≤ f.toInt ∧ f.toInt < s.params.memSize)) :
    resolveRead s pos (.mem f) = .error (.addressOutOfRange f.toInt) := by
  rw [resolveRead, memCheck_of_not_inRange hf]
  rfl

theorem resolveTarget_reg (s : State) {f : Word} (hf : f.toNat < 4) :
    resolveTarget s (.reg f) = .ok (.reg ⟨f.toNat, hf⟩) := by
  rw [resolveTarget, regCheck_of_lt hf]
  rfl

theorem resolveTarget_mem_of_not_inRange {s : State} {f : Word} (hf : ¬(0 ≤ f.toInt ∧ f.toInt < s.params.memSize)) :
    resolveTarget s (.mem f) = .error (.addressOutOfRange f.toInt) := by
  rw [resolveTarget, memCheck_of_not_inRange hf]
  rfl

/-! ### The ways MOV's chain can end (R112) -/

/-- The chain of R112 after the arity check. -/
theorem moveWord_present (d v : Operand) (s : State) :
    moveWord (some d) (some v) s =
      placeOf d >>= fun p => resolveRead s .src v >>= fun x => resolveTarget s p >>= fun g =>
        .ok (reportOk .mov d v (commit g x s)) := rfl

theorem exec_mov_imm (b : Word) (v : Operand) (s : State) :
    exec (.mov (some (.imm b)) (some v)) s = .next (failedWith (.invalidRegister .dst) s) := rfl

theorem exec_mov_of_read_error {s : State} {d v : Operand} {p : Place} {e : Error} (hd : placeOf d = .ok p)
    (hv : resolveRead s .src v = .error e) : exec (.mov (some d) (some v)) s = .next (failedWith e s) := by
  rw [exec_mov, moveWord_present, hd, hv]
  rfl

theorem exec_mov_of_target_error {s : State} {d v : Operand} {p : Place} {x : Word} {e : Error} (hd : placeOf d = .ok p)
    (hv : resolveRead s .src v = .ok x) (hg : resolveTarget s p = .error e) :
    exec (.mov (some d) (some v)) s = .next (failedWith e s) := by
  rw [exec_mov, moveWord_present, hd, hv, except_ok_bind, except_ok_bind, hg]
  rfl

theorem exec_mov_reg {s : State} {f x : Word} {v : Operand} (hf : f.toNat < 4) (hv : resolveRead s .src v = .ok x) :
    exec (.mov (some (.reg f)) (some v)) s = .next (wroteRegister .mov (.reg f) v ⟨f.toNat, hf⟩ x s) := by
  have hd : placeOf (.reg f) = .ok (.reg f) := rfl
  rw [exec_mov, moveWord_present, hd, hv, except_ok_bind, except_ok_bind, resolveTarget_reg s hf]
  rfl

/-- Settles O18: one ending of the chain for each row of the table. -/
theorem movFormsHaveTheOutcomesOfTheTable : Obligations.MovFormsHaveTheOutcomesOfTheTable := by
  intro s d r b a x hd hr n inRange cell i y bad
  have hreg : resolveRead s .src (.reg r) = .ok y := resolveRead_reg s .src hr
  have himm : resolveRead s .src (.imm x) = .ok x := resolveRead_imm s .src x
  refine ⟨exec_mov_reg hd hreg, exec_mov_reg hd himm, ?_, ?_, ?_, ?_, ?_, ?_, ?_, ?_, ?_, fun v _ => exec_mov_imm b v s⟩
  · exact fun ha => exec_mov_reg hd (resolveRead_mem .src ha)
  · exact fun ha => exec_mov_of_read_error rfl (resolveRead_mem_of_not_inRange .src ha)
  · exact fun hb => exec_mov_mem hb.1 hb.2 hreg
  · exact fun hb => exec_mov_of_target_error rfl hreg (resolveTarget_mem_of_not_inRange hb)
  · exact fun hb => exec_mov_mem hb.1 hb.2 himm
  · exact fun hb => exec_mov_of_target_error rfl himm (resolveTarget_mem_of_not_inRange hb)
  · exact fun ha hb => exec_mov_mem hb.1 hb.2 (resolveRead_mem .src ha)
  · exact fun ha => exec_mov_of_read_error rfl (resolveRead_mem_of_not_inRange .src ha)
  · exact fun ha hb => exec_mov_of_target_error rfl (resolveRead_mem .src ha) (resolveTarget_mem_of_not_inRange hb)

/-! ### A chain of checks raises the first error of its list (60_exceptions.md R168) -/

/-- The error that a list of conditions reports: that of the first condition that holds. -/
def firstCheck (l : List (Bool × Error)) : Option Error := (l.find? fun c => c.1).map fun c => c.2

theorem firstError_eq_firstCheck (i : Instr) (s : State) : firstError i s = firstCheck (errorChecks i s) := rfl

theorem firstCheck_append (l l' : List (Bool × Error)) : firstCheck (l ++ l') = (firstCheck l).or (firstCheck l') := by
  simp only [firstCheck, List.find?_append, Option.map_or]

/-- The error that a computation raises, if any. -/
def raised {α : Type} : Except Error α → Option Error
  | .ok _ => none
  | .error e => some e

/-- Checks made one after the other report in the order of their lists. -/
theorem raised_bind {α β : Type} {r : Except Error α} {f : α → Except Error β} {l l' : List (Bool × Error)}
    (hr : raised r = firstCheck l) (hf : ∀ a, r = .ok a → raised (f a) = firstCheck l') :
    raised (r >>= f) = firstCheck (l ++ l') := by
  rw [firstCheck_append, ← hr]
  cases r with
  | ok a => exact hf a rfl
  | error e => rfl

theorem raised_placeOf (d : Operand) : raised (placeOf d) = firstCheck [(isImmediate d, .invalidRegister .dst)] := by
  cases d <;> rfl

/-- The conditions on the field of an operand in position `pos`: its index, or its address (R168 steps 4 and 5). -/
def fieldChecks (n : Nat) (pos : Position) (o : Operand) : List (Bool × Error) :=
  [(namesNoRegister o, .invalidRegister pos), (outOfRange n o, .addressOutOfRange (addressOf o))]

theorem raised_regCheck (n : Nat) (pos : Position) (f : Word) :
    raised (regCheck pos f) = firstCheck (fieldChecks n pos (.reg f)) := by
  rcases regCheck_cases pos f with ⟨hf, hr⟩ | ⟨hf, hr⟩
  · simp [hr, raised, firstCheck, fieldChecks, namesNoRegister, outOfRange, hf]
  · simp [hr, raised, firstCheck, fieldChecks, namesNoRegister, hf]

theorem raised_memCheck (n : Nat) (pos : Position) (f : Word) :
    raised (memCheck n f.toInt) = firstCheck (fieldChecks n pos (.mem f)) := by
  rcases memCheck_cases n f.toInt with ⟨h0, h1, hr⟩ | ⟨h, hr⟩
  · simp [hr, raised, firstCheck, fieldChecks, namesNoRegister, outOfRange, h0, h1]
  · simp [hr, raised, firstCheck, fieldChecks, namesNoRegister, outOfRange, addressOf, valueField, h]

theorem raised_resolveRead (s : State) (pos : Position) (o : Operand) :
    raised (resolveRead s pos o) = firstCheck (fieldChecks s.params.memSize pos o) := by
  cases o with
  | reg f => exact raised_bind (l' := []) (raised_regCheck _ pos f) fun _ _ => rfl
  | imm v => rfl
  | mem f => exact raised_bind (l' := []) (raised_memCheck _ pos f) fun _ _ => rfl

theorem raised_resolveTarget {s : State} {d : Operand} {p : Place} (hd : placeOf d = .ok p) :
    raised (resolveTarget s p) = firstCheck (fieldChecks s.params.memSize .dst d) := by
  rcases placeOf_ok hd with ⟨f, rfl, rfl⟩ | ⟨f, rfl, rfl⟩
  · exact raised_bind (l' := []) (raised_regCheck _ .dst f) fun _ _ => rfl
  · exact raised_bind (l' := []) (raised_memCheck _ .dst f) fun _ _ => rfl

/-- MOV raises the first error of R168's list, and none exactly where the list reports none. -/
theorem raised_moveWord (dst src : Option Operand) (s : State) :
    raised (moveWord dst src s) = firstError (.mov dst src) s := by
  match dst, src with
  | none, none => rfl
  | none, some v => rfl
  | some d, none => rfl
  | some d, some v =>
    rw [moveWord_present, firstError_eq_firstCheck]
    refine raised_bind (raised_placeOf d) fun p hp => ?_
    refine raised_bind (raised_resolveRead s .src v) fun x _ => ?_
    exact raised_bind (l' := []) (raised_resolveTarget hp) fun g _ => rfl

/-! ### The inversion of MOV -/

/-- All that a MOV of `dst` and `src` in state `s` can come to; `exec_mov_next` ties it to `exec`. -/
inductive MoveEffect (s : State) : Option Operand → Option Operand → State → Prop
  | failed {dst src : Option Operand} (e : Error) (hfirst : firstError (.mov dst src) s = some e) :
      MoveEffect s dst src (failedWith e s)
  | toRegister (f x : Word) (v : Operand) (hf : f.toNat < 4) (hv : resolveRead s .src v = .ok x)
      (hfirst : firstError (.mov (some (.reg f)) (some v)) s = none) :
      MoveEffect s (some (.reg f)) (some v) (wroteRegister .mov (.reg f) v ⟨f.toNat, hf⟩ x s)
  | toMemory (f x : Word) (v : Operand) (hf : 0 ≤ f.toInt ∧ f.toInt < s.params.memSize)
      (hv : resolveRead s .src v = .ok x) (hfirst : firstError (.mov (some (.mem f)) (some v)) s = none) :
      MoveEffect s (some (.mem f)) (some v) (wroteMemory .mov (.mem f) v f.toInt.toNat x s)

theorem exec_mov_next {dst src : Option Operand} {s t : State} (h : exec (.mov dst src) s = .next t) :
    MoveEffect s dst src t := by
  rw [exec_mov] at h
  have hraised := raised_moveWord dst src s
  rcases settle_next.mp h with ⟨u, hu, rfl⟩ | ⟨e, he, rfl⟩
  · have hfirst : firstError (.mov dst src) s = none := by rw [← hraised, hu, raised]
    obtain ⟨d, v, x, rfl, rfl, hv, ⟨f, rfl, hf, rfl⟩ | ⟨f, rfl, h0, h1, rfl⟩⟩ := moveWord_ok hu
    · exact .toRegister f x v hf hv hfirst
    · exact .toMemory f x v ⟨h0, h1⟩ hv hfirst
  · exact .failed e (by rw [← hraised, he, raised])

/-! ### What MOV leaves unchanged (R114) -/

theorem MoveEffect.regs_get {dst src : Option Operand} {s t : State} {j : Fin 4} (h : MoveEffect s dst src t)
    (hj : ∀ d : Word, dst = some (.reg d) → d.toNat ≠ j.val) : t.regs.get j = s.regs.get j := by
  cases h with
  | failed e _ => rfl
  | toRegister f x v hf _ _ =>
    exact RegFile.get_set_of_ne _ x fun hjf => hj f rfl (congrArg Fin.val hjf).symm
  | toMemory f x v _ _ _ => rfl

theorem MoveEffect.mem_read {dst src : Option Operand} {s t : State} {c : Nat} (h : MoveEffect s dst src t)
    (hc : ∀ b : Word, dst = some (.mem b) → b.toInt ≠ c) : Memory.read t.mem c = Memory.read s.mem c := by
  cases h with
  | failed e _ => rfl
  | toRegister f x v _ _ _ => rfl
  | toMemory f x v hf _ _ =>
    have hne := hc f rfl
    exact Memory.read_write_of_ne _ x (by omega)

theorem MoveEffect.unchanged_of_error {dst src : Option Operand} {s t : State} (h : MoveEffect s dst src t)
    (he : firstError (.mov dst src) s ≠ none) : t.regs = s.regs ∧ t.mem = s.mem := by
  cases h with
  | failed e _ => exact ⟨rfl, rfl⟩
  | toRegister f x v _ _ hfirst => exact absurd hfirst he
  | toMemory f x v _ _ hfirst => exact absurd hfirst he

/-- Settles O19: by the inversion of MOV; `MOV reg, imm` by its row of the table. -/
theorem movChangesOnlyItsDestination : Obligations.MovChangesOnlyItsDestination := by
  intro s t dst src h
  have heffect := exec_mov_next h
  obtain ⟨hprog, hparams⟩ := (exec_next h).prog_params_eq
  refine ⟨?_, fun _ => heffect.regs_get, fun _ => heffect.mem_read, heffect.unchanged_of_error, ?_, hprog, hparams⟩
  · rintro d x hd rfl rfl
    obtain rfl := Host.Outcome.next.inj ((exec_mov_reg hd (resolveRead_imm s .src x)).symm.trans h)
    exact (RegFile.get_set _ _ _ x).trans (if_pos rfl)
  · rw [(exec_next h).status_eq, if_neg Instr.noConfusion]

/-! ### A write of what is there already -/

theorem RegFile.set_get_self (x : RegFile) (i : Fin 4) : x.set i (x.get i) = x := by
  refine RegFile.ext_get fun j => ?_
  rw [RegFile.get_set]
  split
  · next hj => rw [hj]
  · rfl

/-- The canonical form is needed: in any other memory the write may relist the cells. -/
theorem Memory.write_read_self {m : Memory} (a : Nat) (hw : Memory.wf m = true) :
    Memory.write m a (Memory.read m a) = m := by
  refine memoryIsDeterminedByItsReads _ m (Memory.write_wf a _ hw) hw fun b => ?_
  rcases eq_or_ne b a with rfl | hb
  · exact Memory.read_write_self b _ hw
  · exact Memory.read_write_of_ne m _ hb

/-- Settles O21: with no error, MOV writes back the word it read. -/
theorem movToItselfChangesNothing : Obligations.MovToItselfChangesNothing := by
  intro s o hw hnone
  obtain ⟨t, ht⟩ := exec_is_next (.mov (some o) (some o)) s
  rw [ht]
  cases exec_mov_next ht with
  | failed e hfirst => exact absurd (hfirst.symm.trans hnone) (by simp)
  | toRegister f x _ hf hv _ =>
    obtain rfl := Except.ok.inj ((resolveRead_reg s .src hf).symm.trans hv)
    rw [wroteRegister, RegFile.set_get_self]
  | toMemory f x _ hf hv _ =>
    obtain rfl := Except.ok.inj ((resolveRead_mem .src hf).symm.trans hv)
    rw [wroteMemory, Memory.write_read_self _ hw]

end Sys2Proof.Machine

/-! # Arithmetic (spec/41_alu_arithmetic.md)

The results of the simple_alu are facts about integers and their words, at any width. ADD, SUB, MUL and DIV of two
registers end in one of two ways, `exec_aluInstr_ok` and `exec_div_by_zero`; over all operand forms they are inverted in
`exec_aluInstr_next`, which rests on `raised_registerRegister`: the chain of R123 raises the first error of R168's list. -/

namespace Sys2Proof.Machine

/-! ### The signed range of a word (00_scope.md R9) -/

theorem intMin_eq_neg_pow (w : Nat) : intMin w = -2 ^ (w - 1) := by simp [intMin]

theorem intMax_eq_pow_sub_one (w : Nat) : intMax w = 2 ^ (w - 1) - 1 := by simp [intMax]

theorem intMin_le_intMax (w : Nat) : intMin w ≤ intMax w := by
  have hpos : 0 < 2 ^ (w - 1) := Nat.two_pow_pos _
  rw [intMin, intMax]
  omega

theorem toInt_inRange {w : Nat} (x : BitVec w) : intMin w ≤ x.toInt ∧ x.toInt ≤ intMax w := by
  rw [intMin_eq_neg_pow, intMax_eq_pow_sub_one]
  exact ⟨x.le_toInt, Int.le_sub_one_of_lt x.toInt_lt⟩

/-- `word(i)` of an integer in range reads back as it. -/
theorem toInt_ofInt_of_inRange {w : Nat} {i : Int} (hw : 2 ≤ w) (hlow : intMin w ≤ i) (hhigh : i ≤ intMax w) :
    (BitVec.ofInt w i).toInt = i := by
  rw [intMin_eq_neg_pow] at hlow
  rw [intMax_eq_pow_sub_one] at hhigh
  exact BitVec.toInt_ofInt_eq_self (by omega) hlow (Int.lt_of_le_sub_one hhigh)

/-! ### Overflow (R121) -/

theorem clamp_wrap (w : Nat) (i : Int) : (clamp .wrap i : BitVec w) = BitVec.ofInt w i := rfl

/-- `saturate` clamps to the range first, and what it then takes the word of is in range. -/
theorem toInt_clamp_saturate {w : Nat} (i : Int) (hw : 2 ≤ w) :
    (clamp .saturate i : BitVec w).toInt = min (max i (intMin w)) (intMax w) := by
  have hrange := intMin_le_intMax w
  exact toInt_ofInt_of_inRange hw (by omega) (by omega)

theorem toInt_clamp_of_inRange {w : Nat} (p : OverflowPolicy) {i : Int} (hw : 2 ≤ w) (hlow : intMin w ≤ i)
    (hhigh : i ≤ intMax w) : (clamp p i : BitVec w).toInt = i := by
  cases p with
  | wrap => exact toInt_ofInt_of_inRange hw hlow hhigh
  | saturate => rw [toInt_clamp_saturate i hw, max_eq_left hlow, min_eq_left hhigh]

/-- `wrap` keeps the residue modulo `2 ^ w`, and a residue has one integer in range. -/
theorem eq_toInt_clamp_wrap_iff {w : Nat} (i j : Int) (hw : 2 ≤ w) :
    (intMin w ≤ j ∧ j ≤ intMax w ∧ ((2 ^ w : Nat) : Int) ∣ i - j) ↔ j = (clamp .wrap i : BitVec w).toInt := by
  constructor
  · rintro ⟨hlow, hhigh, hdvd⟩
    have hbmod : i.bmod (2 ^ w) = j.bmod (2 ^ w) :=
      Int.bmod_eq_bmod_iff_bmod_sub_eq_zero.mpr (Int.dvd_iff_bmod_eq_zero.mp hdvd)
    calc
      j = (BitVec.ofInt w j).toInt := (toInt_ofInt_of_inRange hw hlow hhigh).symm
      _ = (BitVec.ofInt w i).toInt := by rw [BitVec.toInt_ofInt, BitVec.toInt_ofInt, hbmod]
  · rintro rfl
    obtain ⟨hlow, hhigh⟩ := toInt_inRange (clamp .wrap i : BitVec w)
    refine ⟨hlow, hhigh, ?_⟩
    rw [clamp_wrap, BitVec.toInt_ofInt]
    exact Int.dvd_self_sub_bmod

/-! ### Division (R122) -/

theorem truncDiv_of_sameSign {a b : Int} (h : a = 0 ∨ (0 < a ∧ 0 < b) ∨ (a < 0 ∧ b < 0)) :
    truncDiv a b = |a| / |b| := by
  rw [truncDiv, if_pos (by omega), Int.natCast_div, Int.natCast_natAbs, Int.natCast_natAbs]

theorem truncDiv_of_oppositeSign {a b : Int} (hb : b ≠ 0) (h : ¬(a = 0 ∨ (0 < a ∧ 0 < b) ∨ (a < 0 ∧ b < 0))) :
    truncDiv a b = -(|a| / |b|) := by
  rw [truncDiv, if_neg (by omega), Int.natCast_div, Int.natCast_natAbs, Int.natCast_natAbs]

theorem truncDiv_zero_left (b : Int) : truncDiv 0 b = 0 := by simp [truncDiv]

theorem truncDiv_natCast (n : Nat) {m : Nat} (hm : m ≠ 0) : truncDiv n m = (n / m : Nat) := by
  rw [truncDiv, if_pos (by omega), Int.natAbs_natCast, Int.natAbs_natCast]

theorem truncDiv_neg_left (a b : Int) : truncDiv (-a) b = -truncDiv a b := by
  rcases eq_or_ne a 0 with rfl | ha
  · simp [truncDiv_zero_left]
  · rw [truncDiv, truncDiv, Int.natAbs_neg]
    split_ifs <;> omega

theorem truncDiv_neg_right (a : Int) {b : Int} (hb : b ≠ 0) : truncDiv a (-b) = -truncDiv a b := by
  rcases eq_or_ne a 0 with rfl | ha
  · simp [truncDiv_zero_left]
  · rw [truncDiv, truncDiv, Int.natAbs_neg]
    split_ifs <;> omega

theorem truncDiv_natCast_left (n : Nat) {b : Int} (hb : b ≠ 0) : truncDiv n b = (n : Int).tdiv b := by
  obtain ⟨m, rfl | rfl⟩ := b.eq_nat_or_neg
  · rw [truncDiv_natCast n (by omega), Int.ofNat_tdiv]
  · rw [truncDiv_neg_right _ (by omega), truncDiv_natCast n (by omega), Int.tdiv_neg, Int.ofNat_tdiv]

/-- The rule's formula is the library's truncating division: both are odd in each argument, and agree on naturals. -/
theorem truncDiv_eq_tdiv (a : Int) {b : Int} (hb : b ≠ 0) : truncDiv a b = a.tdiv b := by
  obtain ⟨n, rfl | rfl⟩ := a.eq_nat_or_neg
  · exact truncDiv_natCast_left n hb
  · rw [truncDiv_neg_left, truncDiv_natCast_left n hb, Int.neg_tdiv]

/-- Of divisors other than 1 and -1, the quotient is at most half the dividend. -/
theorem natAbs_tdiv_le_half (a : Int) {b : Int} (hb : 2 ≤ b.natAbs) : (a.tdiv b).natAbs ≤ a.natAbs / 2 := by
  rw [Int.natAbs_tdiv]
  exact Nat.div_le_div_left hb (by decide)

/-- In a range from `-m` to `m - 1`, the one quotient that leaves it is `-m / -1`. -/
theorem tdiv_outOfRange_iff {m a b : Int} (hlow : -m ≤ a) (hhigh : a < m) (hb : b ≠ 0) :
    ¬(-m ≤ a.tdiv b ∧ a.tdiv b ≤ m - 1) ↔ a = -m ∧ b = -1 := by
  obtain rfl | rfl | hb2 : b = 1 ∨ b = -1 ∨ 2 ≤ b.natAbs := by omega
  · rw [Int.tdiv_one]
    omega
  · rw [Int.tdiv_neg, Int.tdiv_one]
    omega
  · have hhalf := natAbs_tdiv_le_half a hb2
    omega

/-- Negated, `INT_MIN` is one more than `INT_MAX`. -/
theorem truncDiv_intMin_neg_one (w : Nat) : truncDiv (intMin w) (-1) = ((2 ^ (w - 1) : Nat) : Int) := by
  rw [truncDiv_eq_tdiv _ (by decide), Int.tdiv_neg, Int.tdiv_one, intMin, neg_neg]

/-- Settles O29: the formula by its two cases, the range by the size of the divisor, and the one quotient outside it by the
overflow rule. -/
theorem divisionRoundsTowardZero : Obligations.DivisionRoundsTowardZero := by
  refine ⟨fun a b hb => ⟨truncDiv_of_sameSign, truncDiv_of_oppositeSign hb, truncDiv_eq_tdiv a hb,
    truncDiv_zero_left b⟩, by decide, fun w a b hw hb => ?_, fun w hw => ?_⟩
  · obtain ⟨hlow, hhigh⟩ := toInt_inRange a
    rw [truncDiv_eq_tdiv _ hb]
    exact tdiv_outOfRange_iff hlow (Int.lt_of_le_sub_one hhigh) hb
  · have hrange := intMin_le_intMax w
    have hquot := truncDiv_intMin_neg_one w
    refine ⟨hquot, ?_, ?_⟩
    · refine ((eq_toInt_clamp_wrap_iff _ (intMin w) hw).mp ⟨le_rfl, hrange, 1, ?_⟩).symm
      rw [hquot, intMin, ← Nat.two_pow_pred_mul_two (by omega : 0 < w)]
      omega
    · rw [toInt_clamp_saturate _ hw, hquot]
      simp only [intMin, intMax] at hrange ⊢
      omega

/-! ### The result of the simple_alu (R120) -/

theorem alu_ok {w : Nat} (p : OverflowPolicy) {op : AluOp} {a b : BitVec w} (h : ¬(op = .div ∧ b.toInt = 0)) :
    alu p op a b = .ok (clamp p (exactResult op a.toInt b.toInt)) := by
  rcases alu_cases p op a b with ⟨hop, hb, -⟩ | ⟨-, hr⟩
  · exact absurd ⟨hop, hb⟩ h
  · exact hr

theorem alu_div_zero {w : Nat} (p : OverflowPolicy) (a : BitVec w) {b : BitVec w} (h : b.toInt = 0) :
    alu p .div a b = .error .divisionByZero := by
  rcases alu_cases p .div a b with ⟨-, -, hr⟩ | ⟨hz, -⟩
  · exact hr
  · exact absurd ⟨rfl, h⟩ hz

/-- Settles O28: each operation by the result of the ALU, each policy by its word. -/
theorem clampFollowsTheOverflowPolicy : Obligations.ClampFollowsTheOverflowPolicy := by
  refine ⟨fun w p a b => ?_, rfl, fun w i hw => ?_⟩
  · exact ⟨alu_ok p (by simp), alu_ok p (by simp), alu_ok p (by simp), fun hb => alu_ok p fun h => hb h.2⟩
  · exact ⟨fun p => toInt_clamp_of_inRange p hw, fun j => eq_toInt_clamp_wrap_iff i j hw, toInt_clamp_saturate i hw⟩

/-! ### Two registers as operands (R123) -/

/-- The chain of R123 after its checks: the ALU, then the write and the report. -/
theorem registerRegister_registers (op : AluOp) {d r : Word} (s : State) (hd : d.toNat < 4) (hr : r.toNat < 4) :
    registerRegister op (some (.reg d)) (some (.reg r)) s =
      alu s.params.overflow op (s.regs.get ⟨d.toNat, hd⟩) (s.regs.get ⟨r.toNat, hr⟩) >>= fun y =>
        .ok (reportOk (.alu op) (.reg d) (.reg r) (commit (.reg ⟨d.toNat, hd⟩) y s)) := by
  simp only [registerRegister, bothOperands, registerField, regCheck_of_lt hd, regCheck_of_lt hr, except_ok_bind]
  rfl

theorem exec_aluInstr_ok (op : AluOp) {d r : Word} (s : State) (hd : d.toNat < 4) (hr : r.toNat < 4)
    (hz : ¬(op = .div ∧ (s.regs.get ⟨r.toNat, hr⟩).toInt = 0)) :
    exec (aluInstr op (some (.reg d)) (some (.reg r))) s =
      .next (wroteRegister (.alu op) (.reg d) (.reg r) ⟨d.toNat, hd⟩
        (clamp s.params.overflow
          (exactResult op (s.regs.get ⟨d.toNat, hd⟩).toInt (s.regs.get ⟨r.toNat, hr⟩).toInt)) s) := by
  rw [exec_aluInstr, registerRegister_registers op s hd hr, alu_ok _ hz]
  rfl

theorem exec_div_by_zero {d r : Word} (s : State) (hd : d.toNat < 4) (hr : r.toNat < 4)
    (hz : (s.regs.get ⟨r.toNat, hr⟩).toInt = 0) :
    exec (.div (some (.reg d)) (some (.reg r))) s = .next (failedWith .divisionByZero s) := by
  have h := exec_aluInstr .div (some (.reg d)) (some (.reg r)) s
  rw [registerRegister_registers .div s hd hr, alu_div_zero _ _ hz] at h
  exact h

/-- Settles O22: ADD has no arithmetic error. -/
theorem addWritesTheClampedSum : Obligations.AddWritesTheClampedSum := fun s _ _ hd hr =>
  exec_aluInstr_ok .add s hd hr (by simp)

/-- Settles O23: SUB has no arithmetic error. -/
theorem subWritesTheClampedDifference : Obligations.SubWritesTheClampedDifference := fun s _ _ hd hr =>
  exec_aluInstr_ok .sub s hd hr (by simp)

/-- Settles O24: MUL has no arithmetic error. -/
theorem mulWritesTheClampedProduct : Obligations.MulWritesTheClampedProduct := fun s _ _ hd hr =>
  exec_aluInstr_ok .mul s hd hr (by simp)

/-- Settles O25: by whether the divisor is zero. -/
theorem divWritesTheClampedQuotient : Obligations.DivWritesTheClampedQuotient := by
  intro s d r hd hr
  refine ⟨fun hz => ?_, exec_div_by_zero s hd hr⟩
  rw [← truncDiv_eq_tdiv _ hz]
  exact exec_aluInstr_ok .div s hd hr fun h => hz h.2

/-! ### One register as source and destination (R129) -/

theorem clamp_zero (p : OverflowPolicy) : (clamp p 0 : Word) = 0 := by cases p <;> decide

theorem clamp_one (p : OverflowPolicy) : (clamp p 1 : Word) = 1 := by cases p <;> decide

/-- Settles O27: the four results with equal operands. -/
theorem sameRegisterArithmetic : Obligations.SameRegisterArithmetic := by
  intro s d hd i o r
  refine ⟨?_, ?_, mulWritesTheClampedProduct s d d hd hd, fun hr => ?_, exec_div_by_zero s hd hd⟩
  · rw [two_mul]
    exact addWritesTheClampedSum s d d hd hd
  · rw [← clamp_zero s.params.overflow, ← sub_self r]
    exact subWritesTheClampedDifference s d d hd hd
  · rw [← clamp_one s.params.overflow, ← Int.tdiv_self hr]
    exact (divWritesTheClampedQuotient s d d hd hd).1 hr

/-! ### The chain of R123 raises the first error of its list (60_exceptions.md R168) -/

theorem errorChecks_aluInstr (op : AluOp) (dst src : Option Operand) (s : State) :
    errorChecks (aluInstr op dst src) s = instructionErrors (.alu op) dst src s := by
  cases op <;> rfl

theorem raised_registerField (pos : Position) (o : Operand) :
    raised (registerField pos o) = firstCheck [(!isRegister o, .invalidRegister pos)] := by
  cases o <;> rfl

/-- A register operand has no address, so the index is its whole check. -/
theorem raised_regCheck_index (pos : Position) (f : Word) :
    raised (regCheck pos f) = firstCheck [(namesNoRegister (.reg f), .invalidRegister pos)] := by
  rw [raised_regCheck 0, fieldChecks]
  cases namesNoRegister (.reg f) <;> rfl

theorem registerAt_of_lt {f : Word} (hf : f.toNat < 4) : registerAt f = ⟨f.toNat, hf⟩ :=
  Fin.ext (Nat.mod_eq_of_lt hf)

/-- The divisor of R163 is zero as a word exactly where it is zero as an integer. -/
theorem holdsZero_reg (s : State) {f : Word} (hf : f.toNat < 4) :
    holdsZero s (.reg f) = decide ((s.regs.get ⟨f.toNat, hf⟩).toInt = 0) := by
  rw [holdsZero, registerAt_of_lt hf]
  exact decide_eq_decide.mpr (BitVec.toInt_inj (y := 0)).symm

theorem raised_alu {w : Nat} (p : OverflowPolicy) (op : AluOp) (a b : BitVec w) :
    raised (alu p op a b) = firstCheck [(decide (op = .div) && decide (b.toInt = 0), .divisionByZero)] := by
  rcases alu_cases p op a b with ⟨rfl, hb, hr⟩ | ⟨hz, hr⟩
  · simp [hr, raised, firstCheck, hb]
  · simpa [hr, raised, firstCheck] using hz

/-- ADD, SUB, MUL and DIV raise the first error of R168's list, and none exactly where the list reports none. -/
theorem raised_registerRegister (op : AluOp) (dst src : Option Operand) (s : State) :
    raised (registerRegister op dst src s) = firstError (aluInstr op dst src) s := by
  rw [firstError_eq_firstCheck, errorChecks_aluInstr]
  match dst, src with
  | none, none => rfl
  | none, some v => rfl
  | some d, none => rfl
  | some d, some v =>
    refine raised_bind (raised_registerField .dst d) fun df hdf => ?_
    refine raised_bind (raised_registerField .src v) fun sf hsf => ?_
    obtain rfl := registerField_ok hdf
    obtain rfl := registerField_ok hsf
    refine raised_bind (raised_regCheck_index .dst df) fun i _ => ?_
    refine raised_bind (raised_regCheck_index .src sf) fun j hj => ?_
    rcases regCheck_cases .src sf with ⟨hs, hq⟩ | ⟨-, hq⟩
    · obtain rfl := Except.ok.inj (hq.symm.trans hj)
      rw [holdsZero_reg s hs]
      exact raised_bind (l' := []) (raised_alu _ op _ _) fun y _ => rfl
    · exact absurd (hq.symm.trans hj) (by simp)

/-! ### The inversion of ADD, SUB, MUL and DIV -/

/-- All that an operation on `dst` and `src` in state `s` can come to; `exec_aluInstr_next` ties it to `exec`. -/
inductive AluEffect (op : AluOp) (s : State) : Option Operand → Option Operand → State → Prop
  | failed {dst src : Option Operand} (e : Error) (hfirst : firstError (aluInstr op dst src) s = some e) :
      AluEffect op s dst src (failedWith e s)
  | wrote (d r x : Word) (hd : d.toNat < 4)
      (hfirst : firstError (aluInstr op (some (.reg d)) (some (.reg r))) s = none) :
      AluEffect op s (some (.reg d)) (some (.reg r))
        (wroteRegister (.alu op) (.reg d) (.reg r) ⟨d.toNat, hd⟩ x s)

theorem exec_aluInstr_next {op : AluOp} {dst src : Option Operand} {s t : State}
    (h : exec (aluInstr op dst src) s = .next t) : AluEffect op s dst src t := by
  rw [exec_aluInstr] at h
  have hraised := raised_registerRegister op dst src s
  rcases settle_next.mp h with ⟨u, hu, rfl⟩ | ⟨e, he, rfl⟩
  · have hfirst : firstError (aluInstr op dst src) s = none := by rw [← hraised, hu, raised]
    obtain ⟨d, r, rfl, rfl, hd, -, -, rfl⟩ := registerRegister_ok hu
    exact .wrote d r _ hd hfirst
  · exact .failed e (by rw [← hraised, he, raised])

/-! ### What ADD, SUB, MUL and DIV leave unchanged (R123) -/

theorem AluEffect.regs_get {op : AluOp} {dst src : Option Operand} {s t : State} {j : Fin 4}
    (h : AluEffect op s dst src t) (hj : ∀ d : Word, dst = some (.reg d) → d.toNat ≠ j.val) :
    t.regs.get j = s.regs.get j := by
  cases h with
  | failed e _ => rfl
  | wrote d r x hd _ => exact RegFile.get_set_of_ne _ x fun hjd => hj d rfl (congrArg Fin.val hjd).symm

theorem AluEffect.regs_of_error {op : AluOp} {dst src : Option Operand} {s t : State} (h : AluEffect op s dst src t)
    (he : firstError (aluInstr op dst src) s ≠ none) : t.regs = s.regs := by
  cases h with
  | failed e _ => rfl
  | wrote d r x _ hfirst => exact absurd hfirst he

/-- Neither outcome touches the memory, the status, the program or the parameters. -/
theorem AluEffect.frame {op : AluOp} {dst src : Option Operand} {s t : State} (h : AluEffect op s dst src t) :
    t.mem = s.mem ∧ t.status = s.status ∧ t.prog = s.prog ∧ t.params = s.params := by
  cases h with
  | failed e _ => exact ⟨rfl, rfl, rfl, rfl⟩
  | wrote d r x hd _ => exact ⟨rfl, rfl, rfl, rfl⟩

/-- Settles O26: by the inversion of the four operations. -/
theorem arithmeticChangesOnlyItsDestination : Obligations.ArithmeticChangesOnlyItsDestination := by
  intro op dst src s t h
  have heffect := exec_aluInstr_next h
  exact ⟨fun _ => heffect.regs_get, heffect.regs_of_error, heffect.frame⟩

end Sys2Proof.Machine

/-! # Control and sequencing (spec/42_control_and_sequencing.md)

A step is one of two equations, `step_of_line` and `step_past_lastLine`. A run ends because each of its steps advances `pc`
or ends it (`pc_of_step_running`), while `pc` stays at most one past the last line; the final event is then read off the
invariant (`RunInv.final_event`). -/

namespace Sys2Proof.Machine

/-! ### What a step is (R140, R145) -/

theorem fetch_of_running {s : State} (hs : s.status = .running) (hp : 1 ≤ s.pc) : fetch s = .ok s.prog[s.pc - 1]? := by
  rcases fetch_cases s with ⟨h, -⟩ | ⟨-, h, -⟩ | ⟨-, -, h⟩
  · exact absurd hs h
  · omega
  · exact h

theorem step_of_line {s : State} {w : InstrWord} (hs : s.status = .running) (hp : 1 ≤ s.pc)
    (hw : s.prog[s.pc - 1]? = some w) : step s = exec (decode w) s := by
  rw [step, fetch_of_running hs hp, hw]

theorem step_past_lastLine {s : State} (hs : s.status = .running) (hp : 1 ≤ s.pc) (hend : s.prog[s.pc - 1]? = none) :
    step s = .next (exhaust s) := by
  rw [step, fetch_of_running hs hp, hend]

/-- Settles O6: the line's word is decoded and run. -/
theorem stepRunsTheDecodedInstruction : Obligations.StepRunsTheDecodedInstruction := by
  rintro s w i hs hp hw rfl -
  exact step_of_line hs hp hw

theorem step_at_endOfInput {s : State} (hs : s.status = .running) (hpc : s.pc = s.prog.length + 1) :
    step s = .next { s with status := .exhausted, trace := s.trace ++ [.exhausted (s.prog.length + 1)] } := by
  have hend : s.prog[s.pc - 1]? = none := List.getElem?_eq_none (by omega)
  rw [step_past_lastLine hs (by omega) hend, ← hpc]
  rfl

/-- Settles O7: the empty program is at the end of its input from its start. -/
theorem endOfInputReportsExhausted : Obligations.EndOfInputReportsExhausted :=
  ⟨fun _ => step_at_endOfInput, fun p => step_at_endOfInput (s := State.initial p []) rfl rfl⟩

/-! ### NOP, HLT, MISSING and the reserved opcodes (R141 to R144) -/

/-- A raised error leaves the state that R169 describes. -/
theorem settle_error (e : Error) (s : State) : settle s (.error e) = .next (failedWith e s) := rfl

theorem exec_missing (s : State) : exec .missing s = settle s (.error .missingInstruction) := rfl

theorem exec_reserved (op : BitVec 4) (s : State) :
    exec (.reserved op) s = settle s (.error (.unknownInstruction op)) := rfl

/-- Settles O14: NOP is the bare advance. -/
theorem nopOnlyAdvances : Obligations.NopOnlyAdvances := fun _ => rfl

/-- Settles O15: HLT is the final report and the status. -/
theorem hltEndsTheRunAtItsLine : Obligations.HltEndsTheRunAtItsLine := fun _ => rfl

/-- Settles O16: MISSING is a raised error. -/
theorem missingRaisesMissingInstruction : Obligations.MissingRaisesMissingInstruction := fun s => by
  rw [exec_missing, settle_error]

/-- Settles O17: a reserved opcode is a raised error. -/
theorem reservedRaisesUnknownInstruction : Obligations.ReservedRaisesUnknownInstruction := fun op s => by
  rw [exec_reserved, settle_error]

/-! ### The event of a step (10_state.md R27) -/

theorem Effect.trace_eq {i : Instr} {s t : State} (h : Effect i s t) :
    (∃ ev : Event, ev.line = s.pc ∧ t.trace = s.trace ++ [ev]) ∨ (t.trace = s.trace ∧ i = .nop) := by
  cases h with
  | blank hi => exact .inr ⟨advance_trace s, hi⟩
  | halt _ => exact .inl ⟨.halted s.pc, rfl, report_trace _ s⟩
  | failed e _ _ => exact .inl ⟨.err s.pc e, rfl, takeError_trace e s⟩
  | wrote m d v g x _ _ =>
    refine .inl ⟨.ok s.pc m d v (commit g x s).regs, rfl, ?_⟩
    rw [advance_trace, reportOk_trace, commit_trace, commit_pc]

/-- Settles O11: by the effects of an instruction, and by the step past the last line. -/
theorem eachStepAppendsAtMostOneEvent : Obligations.EachStepAppendsAtMostOneEvent := by
  intro s t h
  obtain ⟨-, -, ⟨-, rfl⟩ | ⟨w, hw, hexec⟩⟩ := step_next h
  · exact .inl ⟨.exhausted s.pc, rfl, exhaust_trace s⟩
  · exact (exec_next hexec).trace_eq.imp_right fun ⟨htrace, hnop⟩ => ⟨htrace, w, hw, hnop⟩

/-! ### Runs of many steps (R147) -/

theorem runSteps_succ_of_next {s t : State} (n : Nat) (h : step s = .next t) : runSteps (n + 1) s = runSteps n t := by
  rw [runSteps, h]

theorem runSteps_of_ended {s : State} (n : Nat) (hs : s.status ≠ .running) : runSteps n s = s := by
  cases n with
  | zero => rfl
  | succ n => rw [runSteps, noStepAfterTheRunEnds s hs]

/-- What every step keeps, every run keeps. -/
theorem runSteps_keeps {P : State → Prop} (hstep : ∀ s t, P s → step s = .next t → P t) (n : Nat) {s : State}
    (h : P s) : P (runSteps n s) := by
  induction n generalizing s with
  | zero => exact h
  | succ n ih =>
    rw [runSteps]
    split
    · next t ht => exact ih (hstep s t h ht)
    · exact h
    · exact h

theorem runSteps_prog (n : Nat) (s : State) : (runSteps n s).prog = s.prog :=
  runSteps_keeps (P := fun u => u.prog = s.prog)
    (fun u t hu ht => ((programAndParametersNeverChange u t ht).1).trans hu) n rfl

theorem runSteps_runInv (n : Nat) {s : State} (h : RunInv s) : RunInv (runSteps n s) :=
  runSteps_keeps stepKeepsTheInvariant n h

/-- While a run goes on, there is a next step. -/
theorem step_is_next {s : State} (hs : s.status = .running) (hp : 1 ≤ s.pc) : ∃ t, step s = .next t := by
  rcases hw : s.prog[s.pc - 1]? with _ | w
  · exact ⟨exhaust s, step_past_lastLine hs hp hw⟩
  · obtain ⟨t, ht⟩ := exec_is_next (decode w) s
    exact ⟨t, (step_of_line hs hp hw).trans ht⟩

/-- A step that does not end the run goes on to the next line: its instruction is no HLT. -/
theorem pc_of_step_running {s t : State} (h : step s = .next t) (ht : t.status = .running) : t.pc = s.pc + 1 := by
  obtain ⟨-, -, ⟨-, rfl⟩ | ⟨w, -, hexec⟩⟩ := step_next h
  · cases ht
  · have heffect := exec_next hexec
    have hne : decode w ≠ .hlt := by
      intro hhlt
      rw [heffect.status_eq, if_pos hhlt] at ht
      cases ht
    rw [heffect.pc_eq, if_neg hne]

/-- A run is over after as many steps as `pc` can still advance, and one more. -/
theorem runSteps_ended (n : Nat) {s : State} (h : RunInv s) (hn : s.status = .running → s.prog.length + 2 ≤ s.pc + n) :
    (runSteps n s).status ≠ .running := by
  induction n generalizing s with
  | zero =>
    intro hs
    have hbound := hn hs
    have hhigh := h.pcHigh
    omega
  | succ n ih =>
    by_cases hs : s.status = .running
    · obtain ⟨t, ht⟩ := step_is_next hs h.pcLow
      rw [runSteps_succ_of_next n ht]
      refine ih (stepKeepsTheInvariant s t h ht) fun hrun => ?_
      have hbound := hn hs
      have hpc := pc_of_step_running ht hrun
      rw [(programAndParametersNeverChange s t ht).1]
      omega
    · rwa [runSteps_of_ended _ hs]

/-- A run that is over ended with the final event of its status (R142, R145). -/
theorem RunInv.final_event {e : State} (h : RunInv e) (hs : e.status ≠ .running) :
    (e.status = .halted ∧ e.pc ≤ e.prog.length ∧ e.trace.getLast? = some (.halted e.pc)) ∨
      (e.status = .exhausted ∧ e.pc = e.prog.length + 1 ∧
        e.trace.getLast? = some (.exhausted (e.prog.length + 1))) := by
  have htrace := h.trace
  rw [traceOk] at htrace
  rcases hstatus : e.status with _ | _ | _
  · exact absurd hstatus hs
  · rw [hstatus] at htrace
    obtain ⟨hline, t, ht, -⟩ := htrace
    exact .inl ⟨rfl, hline, by rw [ht, List.getLast?_concat]⟩
  · rw [hstatus] at htrace
    obtain ⟨hpc, t, ht, -⟩ := htrace
    exact .inr ⟨rfl, hpc, by rw [ht, List.getLast?_concat, hpc]⟩

/-- Settles O37: after the bound's steps the run is over, and the invariant names its final event. -/
theorem everyRunEnds : Obligations.EveryRunEnds := by
  intro s h hs
  have hended := runSteps_ended (s.prog.length + 2 - s.pc) h fun _ => by omega
  have hfinal := (runSteps_runInv (s.prog.length + 2 - s.pc) h).final_event hended
  rwa [runSteps_prog] at hfinal

end Sys2Proof.Machine

/-! # Errors (spec/60_exceptions.md)

The statements rest on `exec_next_firstError`: an instruction takes the first error of R168's list, or it reports none. The
list is then read once against the table of errors (`ErrorRow`). -/

namespace Sys2Proof.Machine

/-! ### An instruction takes the first error of its list, or reports none (R168, R169) -/

@[simp] theorem failedWith_trace (e : Error) (s : State) : (failedWith e s).trace = s.trace ++ [.err s.pc e] := rfl

@[simp] theorem wroteRegister_trace (m : Mnemonic) (d v : Operand) (i : Fin 4) (x : Word) (s : State) :
    (wroteRegister m d v i x s).trace = s.trace ++ [.ok s.pc m d v (s.regs.set i x)] := rfl

@[simp] theorem wroteMemory_trace (m : Mnemonic) (d v : Operand) (a : Nat) (x : Word) (s : State) :
    (wroteMemory m d v a x s).trace = s.trace ++ [.ok s.pc m d v s.regs] := rfl

/-- All that R168 leaves for the next state `t` of instruction `i` in state `s`; `exec_next_firstError` ties it to `exec`. -/
inductive ErrorOutcome (i : Instr) (s : State) : State → Prop
  | failed (e : Error) (hfirst : firstError i s = some e) : ErrorOutcome i s (failedWith e s)
  | unreported {t : State} (hfirst : firstError i s = none) (htrace : ∀ k e, t.trace ≠ s.trace ++ [.err k e]) :
      ErrorOutcome i s t

theorem MoveEffect.errorOutcome {dst src : Option Operand} {s t : State} (h : MoveEffect s dst src t) :
    ErrorOutcome (.mov dst src) s t := by
  cases h with
  | failed e hfirst => exact .failed e hfirst
  | toRegister f x v _ _ hfirst => exact .unreported hfirst (by simp)
  | toMemory f x v _ _ hfirst => exact .unreported hfirst (by simp)

theorem AluEffect.errorOutcome {op : AluOp} {dst src : Option Operand} {s t : State} (h : AluEffect op s dst src t) :
    ErrorOutcome (aluInstr op dst src) s t := by
  cases h with
  | failed e hfirst => exact .failed e hfirst
  | wrote d r x _ hfirst => exact .unreported hfirst (by simp)

theorem exec_next_firstError {i : Instr} {s t : State} (h : exec i s = .next t) : ErrorOutcome i s t := by
  cases i with
  | nop =>
    obtain rfl := Host.Outcome.next.inj ((nopOnlyAdvances s).symm.trans h)
    exact .unreported rfl (by simp)
  | mov dst src => exact (exec_mov_next h).errorOutcome
  | add dst src => exact (exec_aluInstr_next (op := .add) h).errorOutcome
  | sub dst src => exact (exec_aluInstr_next (op := .sub) h).errorOutcome
  | mul dst src => exact (exec_aluInstr_next (op := .mul) h).errorOutcome
  | div dst src => exact (exec_aluInstr_next (op := .div) h).errorOutcome
  | hlt =>
    obtain rfl := Host.Outcome.next.inj ((hltEndsTheRunAtItsLine s).symm.trans h)
    exact .unreported rfl (by simp)
  | missing =>
    obtain rfl := Host.Outcome.next.inj ((missingRaisesMissingInstruction s).symm.trans h)
    exact .failed .missingInstruction rfl
  | reserved op =>
    obtain rfl := Host.Outcome.next.inj ((reservedRaisesUnknownInstruction op s).symm.trans h)
    exact .failed (.unknownInstruction op) rfl

/-- Settles O30: there is a next state, and R168 leaves one outcome for it. -/
theorem theFirstErrorInOrderIsReported : Obligations.TheFirstErrorInOrderIsReported := by
  intro i s
  obtain ⟨t, ht⟩ := exec_is_next i s
  rw [ht]
  cases exec_next_firstError ht with
  | failed e hfirst =>
    refine ⟨fun e' he' => ?_, fun hnone => absurd (hfirst.symm.trans hnone) (by simp)⟩
    rw [Option.some.inj (hfirst.symm.trans he')]
  | unreported hfirst htrace =>
    exact ⟨fun e he => absurd (hfirst.symm.trans he) (by simp), fun _ => ⟨t, rfl, htrace⟩⟩

/-- An `Err` event names the line and the first error, and nothing else happened. -/
theorem exec_reports_error {i : Instr} {s t : State} {k : Nat} {e : Error} (h : exec i s = .next t)
    (htrace : t.trace = s.trace ++ [.err k e]) : k = s.pc ∧ firstError i s = some e ∧ t = failedWith e s := by
  cases exec_next_firstError h with
  | failed e' hfirst =>
    simp only [failedWith_trace, List.append_cancel_left_eq, List.cons.injEq, Event.err.injEq, and_true] at htrace
    obtain ⟨rfl, rfl⟩ := htrace
    exact ⟨rfl, hfirst, rfl⟩
  | unreported _ hno => exact absurd htrace (hno k e)

/-- Settles O31: only an instruction reports an error, and then its next state is `failedWith`. -/
theorem takingAnErrorWritesNothing : Obligations.TakingAnErrorWritesNothing := by
  intro s t k e h htrace
  obtain ⟨hs, -, ⟨-, rfl⟩ | ⟨w, -, hexec⟩⟩ := step_next h
  · simp at htrace
  · obtain ⟨rfl, -, rfl⟩ := exec_reports_error hexec htrace
    exact ⟨rfl, rfl, rfl, rfl, hs, rfl, rfl⟩

/-! ### The table of errors (R160 to R166) -/

/-- The rows of the table: who raises which error in state `s`, with which information; `errorRow_of_firstError` ties it to
R168's list. -/
inductive ErrorRow (s : State) : Instr → Error → Prop
  | invalidRegister (m : Mnemonic) (d v : Operand) (pos : Position) :
      ErrorRow s (instructionOf m (some d) (some v)) (.invalidRegister pos)
  | addressOutOfRange (d v : Operand) (a : Int) (ha : a < 0 ∨ (s.params.memSize : Int) ≤ a) :
      ErrorRow s (.mov (some d) (some v)) (.addressOutOfRange a)
  | divisionByZero (d r : Word) (hd : d.toNat < 4) (hr : r.toNat < 4) (hz : s.regs.get ⟨r.toNat, hr⟩ = 0) :
      ErrorRow s (.div (some (.reg d)) (some (.reg r))) .divisionByZero
  | missingInstruction : ErrorRow s .missing .missingInstruction
  | missingOperand (m : Mnemonic) (dst src : Option Operand) (habsent : dst = none ∨ src = none) :
      ErrorRow s (instructionOf m dst src) (.missingOperand (presentCount dst src))
  | unknownInstruction (op : BitVec 4) : ErrorRow s (.reserved op) (.unknownInstruction op)

theorem presentCount_le_one {dst src : Option Operand} (h : dst = none ∨ src = none) : presentCount dst src ≤ 1 := by
  rcases h with rfl | rfl
  · cases src <;> simp [presentCount]
  · cases dst <;> simp [presentCount]

/-- A list reports its first condition's error, or that condition fails and the rest reports. -/
theorem firstCheck_cons_eq_some {b : Bool} {x e : Error} {l : List (Bool × Error)} :
    firstCheck ((b, x) :: l) = some e ↔ (b = true ∧ e = x) ∨ (b = false ∧ firstCheck l = some e) := by
  cases b <;> simp [firstCheck, eq_comm]

theorem outOfRange_addressOf {n : Nat} {o : Operand} (h : outOfRange n o = true) :
    addressOf o < 0 ∨ (n : Int) ≤ addressOf o := by
  cases o with
  | reg f => cases h
  | imm v => cases h
  | mem f => exact of_decide_eq_true h

theorem errorRow_mov {d v : Operand} {s : State} {e : Error} (h : firstCheck (operandErrors .mov d v s) = some e) :
    ErrorRow s (.mov (some d) (some v)) e := by
  simp only [operandErrors, firstCheck_cons_eq_some] at h
  rcases h with ⟨-, rfl⟩ | ⟨-, ⟨-, rfl⟩ | ⟨-, ⟨hv, rfl⟩ | ⟨-, ⟨-, rfl⟩ | ⟨-, ⟨hd, rfl⟩ | ⟨-, h⟩⟩⟩⟩⟩
  · exact .invalidRegister .mov d v .dst
  · exact .invalidRegister .mov d v .src
  · exact .addressOutOfRange d v _ (outOfRange_addressOf hv)
  · exact .invalidRegister .mov d v .dst
  · exact .addressOutOfRange d v _ (outOfRange_addressOf hd)
  · cases h

/-- The two operand checks that R123 makes of an operand: its class, then its index. -/
theorem reg_of_checks {o : Operand} (hclass : (!isRegister o) = false) (hindex : namesNoRegister o = false) :
    ∃ f : Word, o = .reg f ∧ f.toNat < 4 := by
  cases o with
  | reg f => exact ⟨f, rfl, Nat.not_le.mp (of_decide_eq_false hindex)⟩
  | imm v => cases hclass
  | mem f => cases hclass

theorem errorRow_aluInstr {op : AluOp} {d v : Operand} {s : State} {e : Error}
    (h : firstCheck (operandErrors (.alu op) d v s) = some e) : ErrorRow s (aluInstr op (some d) (some v)) e := by
  simp only [operandErrors, firstCheck_cons_eq_some] at h
  rcases h with ⟨-, rfl⟩ | ⟨hd, ⟨-, rfl⟩ | ⟨hv, ⟨-, rfl⟩ | ⟨hdi, ⟨-, rfl⟩ | ⟨hvi, ⟨hz, rfl⟩ | ⟨-, h⟩⟩⟩⟩⟩
  · exact .invalidRegister (.alu op) d v .dst
  · exact .invalidRegister (.alu op) d v .src
  · exact .invalidRegister (.alu op) d v .dst
  · exact .invalidRegister (.alu op) d v .src
  · obtain ⟨df, rfl, hdf⟩ := reg_of_checks hd hdi
    obtain ⟨rf, rfl, hrf⟩ := reg_of_checks hv hvi
    obtain ⟨hop, hzero⟩ := (Bool.and_eq_true _ _).mp hz
    obtain rfl := of_decide_eq_true hop
    rw [holdsZero, registerAt_of_lt hrf] at hzero
    exact .divisionByZero df rf hdf hrf (of_decide_eq_true hzero)
  · cases h

theorem errorRow_instructionOf {m : Mnemonic} {dst src : Option Operand} {s : State} {e : Error}
    (h : firstCheck (instructionErrors m dst src s) = some e) : ErrorRow s (instructionOf m dst src) e := by
  match dst, src with
  | none, none | none, some _ | some _, none =>
    obtain rfl := Option.some.inj h
    exact .missingOperand m _ _ (by simp)
  | some d, some v =>
    cases m with
    | mov => exact errorRow_mov h
    | alu op => exact errorRow_aluInstr h

theorem errorRow_of_firstError {i : Instr} {s : State} {e : Error} (h : firstError i s = some e) : ErrorRow s i e := by
  cases i with
  | nop | hlt => cases h
  | mov dst src => exact errorRow_instructionOf (m := .mov) h
  | add dst src => exact errorRow_instructionOf (m := .alu .add) h
  | sub dst src => exact errorRow_instructionOf (m := .alu .sub) h
  | mul dst src => exact errorRow_instructionOf (m := .alu .mul) h
  | div dst src => exact errorRow_instructionOf (m := .alu .div) h
  | missing =>
    obtain rfl := Option.some.inj h
    exact .missingInstruction
  | reserved op =>
    obtain rfl := Option.some.inj h
    exact .unknownInstruction op

/-- Settles O32: a reported error is the first of its instruction's list, and the list keeps to the rows of the table. -/
theorem errorsAreRaisedByTheInstructionsOfTheTable : Obligations.ErrorsAreRaisedByTheInstructionsOfTheTable := by
  intro i s t k e h htrace
  obtain ⟨-, hfirst, -⟩ := exec_reports_error h htrace
  cases errorRow_of_firstError hfirst with
  | invalidRegister m d v pos => exact ⟨m, d, v, rfl⟩
  | addressOutOfRange d v a ha => exact ⟨⟨_, _, rfl⟩, ha⟩
  | divisionByZero d r hd hr hz => exact ⟨d, r, rfl, hd, hr, hz⟩
  | missingInstruction => rfl
  | missingOperand m dst src habsent => exact ⟨m, dst, src, rfl, habsent, rfl, presentCount_le_one habsent⟩
  | unknownInstruction op => rfl

end Sys2Proof.Machine

/-! # The launch and the invariant of a run (spec/70_reset_and_hazards.md R190, R191) -/

namespace Sys2Proof.Machine

/-- The program store of a launched run has one word for each line of the file, so the size check on the file is the
invariant's bound on the store (42_control_and_sequencing.md R149). -/
theorem programWords_length {p : Params} {k : Nat} {ls : List Text} {ws : List InstrWord}
    (h : programWords p k ls = .ok ws) : ws.length = ls.length :=
  (programWords_ok.mp h).length_eq.symm

/-- Settles O35: the checks that a launch makes before it starts a run are what an initial state needs. -/
theorem launchSatisfiesTheInvariant : Obligations.LaunchSatisfiesTheInvariant := by
  intro p file s h
  obtain ⟨t, ws, -, hadmitted, hshort, hws, rfl⟩ := launch_started h
  have hfits : ws.length + 1 ≤ p.pcMax := by rwa [programWords_length hws]
  exact runInv_initial hadmitted hfits

/-- The launch without a file, for all parameters: they are checked first (log 17), then the file fails to open. -/
theorem launch_none (p : Params) :
    launch p none = if paramsAdmitted p then .fileOpenFailure else .refused .parametersNotAdmitted := rfl

/-- Settles O53: admitted parameters leave only the failure to open the file. -/
theorem unopenedFileIsALaunchFailure : Obligations.UnopenedFileIsALaunchFailure := by
  intro p hadmitted
  rw [launch_none, if_pos hadmitted]

end Sys2Proof.Machine
